-- ==== Sys2Proof/Word.lean ====
section
/-! DEFINITION. The plain value types of the encoder: an octet of input text, an operation identifier,
an output symbol and a sequence of bits. -/

namespace Sys2Proof

/-- An 8-bit value of an input text (R15, R25). -/
abbrev Octet := BitVec 8

/-- An operation identifier `op_id`, 4 bits wide (R52). -/
abbrev OpId := BitVec 4

/-- A two-bit output symbol, a value in 0..3 (R26, R27). -/
abbrev Symbol := Fin 4

/-- A sequence of `n` bits. Element 0 comes first; an element's index is not a bit number (R10). -/
abbrev BitSeq (n : Nat) := Vector Bool n

end Sys2Proof
end

