-- ==== Sys2Proof/Syntax.lean ====
section
/-! DEFINITION. The nine operations of the operation map (R52), one constructor each, and the request record that
ENCODE carries (R25, R42). -/

namespace Sys2Proof

/-- A request (format REQ): two octet sequences of any length and an unbounded integer (R25, R42, R51). -/
structure Request where
  /-- The callsign's octets, leftmost character first (R34). -/
  callsign : List Octet
  /-- The locator's octets, leftmost character first (R34). -/
  locator : List Octet
  /-- The power in dBm. -/
  power : Int
  deriving DecidableEq, Repr

/-- The request whose every field is zero or empty: both texts of length 0, power 0. -/
def Request.zero : Request := ⟨[], [], 0⟩

/-- The operations of R52. Only ENCODE is visible to the host; the others are its internal stages and take their
operands from the transaction's own storage. -/
inductive Instr where
  /-- op_id 0: one whole transaction (R98). -/
  | encode (r : Request)
  /-- op_id 1: validates and packs the callsign (R56). -/
  | packCallsign
  /-- op_id 2: validates and packs the locator (R65). -/
  | packLocator
  /-- op_id 3: validates and packs the power (R70). -/
  | packPower
  /-- op_id 4: builds the message word and the encoder input (R77). -/
  | assemble
  /-- op_id 5: one step of the convolutional encoder (R82). -/
  | convStep
  /-- op_id 6: all 81 steps of the convolutional encoder (R84). -/
  | convEncode
  /-- op_id 7: permutes the codeword (R90). -/
  | interleave
  /-- op_id 8: merges the sync vector (R95). -/
  | mergeSync
  deriving DecidableEq, Repr

end Sys2Proof
end

