-- ==== Sys2Proof/Machine/State.lean ====
section
/-! DEFINITION. The state of the system: what the host has issued and received, the sequencer, and the storage one
transaction holds (R25..R27, R118). The constant tables are no part of it: nothing writes them (R32; log entry 14). -/

namespace Sys2Proof.Machine

/-- The three errors a request can end with (R106). They are response values, not stops of the machine. -/
inductive ErrorKind where
  /-- A callsign check failed (R57..R61). -/
  | invalidCallsign
  /-- A locator check failed (R66, R67). -/
  | invalidGrid
  /-- The power is outside 0..60 (R71). -/
  | invalidPower
  deriving DecidableEq, Repr

/-- A response, in the form R26 gives: 162 symbols, or one error and no symbols. -/
inductive Response where
  | ok (symbols : Vector Symbol 162)
  | err (e : ErrorKind)
  deriving DecidableEq, Repr

/-- The values of `STAGE` (R27, R104). -/
inductive Stage where
  | pack
  | assemble
  | conv
  | interleave
  | merge
  /-- The transaction has its response (R104, R105). -/
  | done
  deriving DecidableEq, Repr

/-- Which of the two forms of R22 the sequencer takes for a request (DESIGN CHOICE, log entry 1). -/
inductive Stepping where
  /-- One step a request: the whole of ENCODE (R19). -/
  | atomic
  /-- One step a stage operation, in the small-step form (R104). -/
  | staged
  deriving DecidableEq, Repr

/-- The transaction-local storage of R27, under the spec's names, and the request whose fields the packing stages
read. None of it is visible to the host. -/
structure Txn where
  /-- The request of the transaction (R25). -/
  request : Request
  /-- `STAGE`. -/
  stage : Stage
  /-- `CALL6`: the normalized callsign (R60). -/
  call6 : Vector Octet 6
  /-- `N`: the packed callsign (R46). -/
  nField : BitVec 28
  /-- `L`: the packed locator (R47). -/
  lField : BitVec 15
  /-- `P`: the packed power (R48). -/
  pField : BitVec 7
  /-- `W`: the message word (R49). -/
  word : BitVec 50
  /-- `U`: the encoder input (R50). -/
  input : BitSeq 81
  /-- `SR`: the encoder's shift register (R82). -/
  sr : BitVec 32
  /-- `k`: the encoder's step counter, an integer 0..81. -/
  k : Fin 82
  /-- `C`: the codeword (R50). -/
  codeword : BitSeq 162
  /-- `I`: the interleaved word (R50). -/
  interleaved : BitSeq 162
  /-- `S`: the symbols (R50). -/
  symbols : Vector Symbol 162
  deriving DecidableEq, Repr

/-- The whole state. -/
structure State where
  /-- The requests the host has issued and the block has not taken, oldest first (R55, R117; DESIGN CHOICE, log entry 2). -/
  requests : List Request
  /-- The responses delivered, oldest first (R26, R105; DESIGN CHOICE, log entry 2). -/
  responses : List Response
  /-- Which form the sequencer takes for a request (the model's own field; log entry 1). -/
  stepping : Stepping
  /-- The operation the next step performs, by its identifier (the model's own field; R52, log entry 1). -/
  op : OpId
  /-- The transaction-local storage (R27). -/
  txn : Txn
  deriving DecidableEq, Repr

/-- Why the machine stops with a fault. No run from reset reaches one (R107). -/
inductive Fault where
  /-- Raised by CONV_STEP when `k` is 81: R82 gives it step indexes 0..80, and there is no U[81]. Safe: the block's
  sequencer leaves the stage CONV then, and never issues it (DESIGN CHOICE, log entry 7). -/
  | convIndexOutOfRange
  deriving DecidableEq, Repr

/-- Why no meaning is given. -/
inductive Refusal where
  /-- The dispatcher has no meaning for the operation. Safe. No arm answers it. -/
  | notModelled (mnemonic : String)
  /-- Raised by the fetch when the operation register holds 9..15, which name nothing and which no host can present
  (R53, U3). Safe: the block has no transition there either. -/
  | unassignedOp (op : OpId)
  deriving DecidableEq, Repr

/-- The storage while no transaction is in progress, where R118 gives no value: the values of R30 for `SR`, `k` and
`STAGE`, and zero for every other element (DESIGN CHOICE, log entry 4). -/
def Txn.idle : Txn :=
  { request := Request.zero
    stage := .pack
    call6 := Vector.replicate 6 0
    nField := 0
    lField := 0
    pField := 0
    word := 0
    input := Vector.replicate 81 false
    sr := 0
    k := 0
    codeword := Vector.replicate 162 false
    interleaved := Vector.replicate 162 false
    symbols := Vector.replicate 162 0 }

/-- The machine after power-on or reset: no transaction in progress and no response pending (R30, R118). -/
def State.reset : State :=
  { requests := []
    responses := []
    stepping := .atomic
    op := 0
    txn := Txn.idle }

end Sys2Proof.Machine
end

