-- ==== Sys2Proof/Machine/Ops.lean ====
section
/-! DEFINITION. The named operations on the state: how a transaction starts, ends and fails, and what the host and a
reset can do. -/

namespace Sys2Proof.Machine

/-- The storage at the start of a transaction for `r`: `SR` = 0, `k` = 0, `STAGE` = PACK (R30). -/
def Txn.start (r : Request) : Txn := { Txn.idle with request := r }

/-- The block takes `r` and begins its first stage, in the small-step form (R104). -/
def State.begin (s : State) (r : Request) : State := { s with op := 1, txn := Txn.start r }

/-- A response is delivered and `STAGE` becomes DONE (R104, R105). -/
def State.respond (s : State) (r : Response) : State :=
  { s with responses := s.responses ++ [r], txn := { s.txn with stage := .done } }

/-- `raise E()`: ends the transaction at once. The response carries `E` and no symbols; nothing else is written
(R13, R100, R109; DEDUCED, log entry 5). -/
def State.raise (s : State) (e : ErrorKind) : State := s.respond (.err e)

/-- All transaction-local storage is discarded and the sequencer waits for a request (R27, R110). A reset during a
transaction does the same: the transaction is abandoned with no response (R118, U2; DESIGN CHOICE, log
entry 8). -/
def State.discard (s : State) : State := { s with op := 0, txn := Txn.idle }

/-- What a packing stage's result does to the state: it is written back, or its error is raised (R13). -/
def State.commit (s : State) (result : Except ErrorKind Txn) : State :=
  match result with
  | .ok t => { s with txn := t }
  | .error e => s.raise e

/-- The host's one move: it issues a request (R117). -/
def State.issue (s : State) (r : Request) : State := { s with requests := s.requests ++ [r] }

end Sys2Proof.Machine
end

