-- ==== Sys2Proof/Machine/Assembler.lean ====
section
/-! DEFINITION. The message assembler: ASSEMBLE (41_assembler.md, R77..R80). -/

namespace Sys2Proof.Machine

/-- `W = (N, L, P)`: the three fields side by side, the callsign's most significant, which is the sum
`N*2^22 + L*2^7 + P` (R49, R77). -/
def messageWord (n : BitVec 28) (l : BitVec 15) (q : BitVec 7) : BitVec 50 := n ++ l ++ q

/-- `U`: the 50 bits of `W`, most significant first, then 31 flush zeros (R50, R77, R78). -/
def encoderInput (w : BitVec 50) : BitSeq 81 :=
  Vector.ofFn fun i => if i.val ≤ 49 then w.getLsbD (49 - i.val) else false

/-- ASSEMBLE on the transaction's storage: it reads `N`, `L` and `P` and writes `W` and `U` (R77). -/
def Txn.assemble (t : Txn) : Txn :=
  { t with
    word := messageWord t.nField t.lField t.pField
    input := encoderInput (messageWord t.nField t.lField t.pField) }

/-- ASSEMBLE (R77). -/
def execAssemble (s : State) : Host.Outcome State Fault Refusal :=
  .next { s with txn := s.txn.assemble }

end Sys2Proof.Machine
end

