-- ==== Sys2Proof/Config.lean ====
section
/-! DEFINITION. What is fixed when the block is built (R7, R24), and the free values the spec leaves open.
The values this hardware takes stand in Machine/Tables.lean. -/

namespace Sys2Proof

/-- How the callsign's digit position is found: parameter `DIGIT_SCAN` (R7, R59). -/
inductive DigitScan where
  /-- Index 1 is looked at before index 2: the value this hardware takes. -/
  | firstDigit
  /-- Index 2 is looked at before index 1: the convention of the reference encoders. -/
  | index2First
  deriving DecidableEq, Repr

/-- The named parameters of R7. No operation reads or writes them at run time as data (R24). -/
structure Params where
  /-- `POLY_A`: generator mask A, in the LSB-insertion orientation (R81). -/
  polyA : BitVec 32
  /-- `POLY_B`: generator mask B, in the LSB-insertion orientation (R81). -/
  polyB : BitVec 32
  /-- `SYNC`: the synchronization vector (R94). -/
  sync : BitSeq 162
  /-- `DIGIT_SCAN` (R59). -/
  digitScan : DigitScan
  /-- `POWER_WIDTH`: the width in bits of a hardware power port (R25). -/
  powerWidth : Nat
  deriving DecidableEq, Repr

/-- A FREE VALUE: what the 324 `SYMBOLS` lines of a hardware port show with the `n`-th response when its status is not
OK. R43 leaves it unspecified, so it has no body and no statement may rest on a value of it (DESIGN CHOICE, log entry 9). -/
opaque Config.freeSymbols : Nat → BitVec 324

end Sys2Proof
end

