-- ==== Sys2Proof/Machine/Bits.lean ====
section
/-! DEFINITION. The special primitives of R12. -/

namespace Sys2Proof.Machine

/-- The XOR of a list of bits. -/
def xorAll (bits : List Bool) : Bool := bits.foldl (fun acc b => acc ^^ b) false

/-- The bits of `v`, bit 0 first (R9). -/
def bitsOf {n : Nat} (v : BitVec n) : List Bool := (List.range n).map v.getLsbD

/-- `parity32(v)`: 1 when an odd number of bits are set (R12). -/
def parity32 (v : BitVec 32) : Bool := xorAll (bitsOf v)

/-- `bitrev_n(v)`: bit `n-1-i` of the result is bit `i` of `v` (R12). -/
def bitrev {n : Nat} (v : BitVec n) : BitVec n := v.reverse

/-- `popcount(v)`: the number of set bits (R12). -/
def popcount {n : Nat} (v : BitVec n) : Nat := (bitsOf v).countP id

end Sys2Proof.Machine
end

