-- ==== Sys2Proof/Machine/Tables.lean ====
section
/-! DEFINITION. The constant tables (R31) and the parameter values of this hardware (R7). Nothing writes them (R32). -/

namespace Sys2Proof.Machine

/-- `SYNC`, entry 18*row + col (R94). -/
def syncBits : List Nat :=
  [1, 1, 0, 0, 0, 0, 0, 0, 1, 0, 0, 0, 1, 1, 1, 0, 0, 0] ++
  [1, 0, 0, 1, 0, 1, 1, 1, 1, 0, 0, 0, 0, 0, 0, 0, 1, 0] ++
  [0, 1, 0, 1, 0, 0, 0, 0, 0, 0, 1, 0, 1, 1, 0, 0, 1, 1] ++
  [0, 1, 0, 0, 0, 1, 1, 0, 1, 0, 0, 0, 0, 1, 1, 0, 1, 0] ++
  [1, 0, 1, 0, 1, 0, 0, 1, 0, 0, 1, 0, 1, 1, 0, 0, 0, 1] ++
  [1, 0, 1, 0, 1, 0, 0, 0, 1, 0, 0, 0, 0, 0, 1, 0, 0, 1] ++
  [0, 0, 1, 1, 1, 0, 1, 1, 0, 0, 1, 1, 0, 1, 0, 0, 0, 1] ++
  [1, 1, 0, 0, 0, 0, 0, 1, 0, 1, 0, 0, 1, 1, 0, 0, 0, 0] ++
  [0, 0, 0, 1, 1, 0, 1, 0, 1, 1, 0, 0, 0, 1, 1, 0, 0, 0]

/-- `SYNC` has 162 entries (R94). -/
theorem syncBits_length : syncBits.length = 162 := by decide +kernel

/-- The parameter values of this hardware (R7, R81, R94). -/
def hardware : Params :=
  { polyA := 0xF2D05351
    polyB := 0xE4613C47
    sync := ⟨(syncBits.map (· == 1)).toArray, by simp [syncBits_length]⟩
    digitScan := .firstDigit
    powerWidth := 32 }

/-- `PERM`, entry 18*row + col (R89). -/
def permEntries : List (BitVec 8) :=
  [0, 128, 64, 32, 160, 96, 16, 144, 80, 48, 112, 8, 136, 72, 40, 104, 24, 152] ++
  [88, 56, 120, 4, 132, 68, 36, 100, 20, 148, 84, 52, 116, 12, 140, 76, 44, 108] ++
  [28, 156, 92, 60, 124, 2, 130, 66, 34, 98, 18, 146, 82, 50, 114, 10, 138, 74] ++
  [42, 106, 26, 154, 90, 58, 122, 6, 134, 70, 38, 102, 22, 150, 86, 54, 118, 14] ++
  [142, 78, 46, 110, 30, 158, 94, 62, 126, 1, 129, 65, 33, 161, 97, 17, 145, 81] ++
  [49, 113, 9, 137, 73, 41, 105, 25, 153, 89, 57, 121, 5, 133, 69, 37, 101, 21] ++
  [149, 85, 53, 117, 13, 141, 77, 45, 109, 29, 157, 93, 61, 125, 3, 131, 67, 35] ++
  [99, 19, 147, 83, 51, 115, 11, 139, 75, 43, 107, 27, 155, 91, 59, 123, 7, 135] ++
  [71, 39, 103, 23, 151, 87, 55, 119, 15, 143, 79, 47, 111, 31, 159, 95, 63, 127]

/-- `PERM` has 162 entries (R89). -/
theorem permEntries_length : permEntries.length = 162 := by decide +kernel

/-- The interleaver permutation (R89). -/
def permTable : Vector (BitVec 8) 162 := ⟨permEntries.toArray, by simp [permEntries_length]⟩

/-- The construction of `PERM` in R89: the 8-bit indexes in increasing order, each bit-reversed, those below 162 kept. -/
def permScan : List (BitVec 8) :=
  ((List.range 256).map (fun j => bitrev (BitVec.ofNat 8 j))).filter (fun r => decide (r.toNat < 162))

/-- `IPERM`, entry 18*row + col (R92). The interleaver itself reads `PERM`. -/
def ipermEntries : List (BitVec 8) :=
  [0, 81, 41, 122, 21, 102, 61, 142, 11, 92, 51, 132, 31, 112, 71, 152, 6, 87] ++
  [46, 127, 26, 107, 66, 147, 16, 97, 56, 137, 36, 117, 76, 157, 3, 84, 44, 125] ++
  [24, 105, 64, 145, 14, 95, 54, 135, 34, 115, 74, 155, 9, 90, 49, 130, 29, 110] ++
  [69, 150, 19, 100, 59, 140, 39, 120, 79, 160, 2, 83, 43, 124, 23, 104, 63, 144] ++
  [13, 94, 53, 134, 33, 114, 73, 154, 8, 89, 48, 129, 28, 109, 68, 149, 18, 99] ++
  [58, 139, 38, 119, 78, 159, 5, 86, 45, 126, 25, 106, 65, 146, 15, 96, 55, 136] ++
  [35, 116, 75, 156, 10, 91, 50, 131, 30, 111, 70, 151, 20, 101, 60, 141, 40, 121] ++
  [80, 161, 1, 82, 42, 123, 22, 103, 62, 143, 12, 93, 52, 133, 32, 113, 72, 153] ++
  [7, 88, 47, 128, 27, 108, 67, 148, 17, 98, 57, 138, 37, 118, 77, 158, 4, 85]

/-- `IPERM` has 162 entries (R92). -/
theorem ipermEntries_length : ipermEntries.length = 162 := by decide +kernel

/-- The inverse permutation (R92). -/
def ipermTable : Vector (BitVec 8) 162 := ⟨ipermEntries.toArray, by simp [ipermEntries_length]⟩

/-- The power step table, in dBm (R72). -/
def pstepTable : Vector (BitVec 6) 19 :=
  #v[0, 3, 7, 10, 13, 17, 20, 23, 27, 30, 33, 37, 40, 43, 47, 50, 53, 57, 60]

end Sys2Proof.Machine
end

