-- ==== Sys2Proof/Machine/Convolutional.lean ====
section
/-! DEFINITION. The convolutional encoder: CONV_STEP and CONV_ENCODE (42_convolutional.md, R81..R88), in the
MSB-insertion form of R82. -/

namespace Sys2Proof.Machine

/-- The shift register after the bit `u` has entered at its most significant end; the old bit 0 is dropped (R82). -/
def shiftIn (sr : BitVec 32) (u : Bool) : BitVec 32 :=
  (sr >>> 1) ||| ((BitVec.ofBool u).setWidth 32 <<< 31)

/-- The parity of the register bits that a mask selects. The mask is given in the LSB-insertion orientation of the
parameters and used bit-reversed (R81, R82). -/
def tapParity (poly : BitVec 32) (sr : BitVec 32) : Bool := parity32 (sr &&& bitrev poly)

/-- CONV_STEP at step index `k`: it reads `SR` and `U[k]` and writes `SR`, `C[2k]` and `C[2k+1]` (R82). -/
def Txn.convStep (p : Params) (k : Fin 81) (t : Txn) : Txn :=
  { t with
    sr := shiftIn t.sr (t.input.get k)
    codeword :=
      (t.codeword.set (2 * k.val) (tapParity p.polyA (shiftIn t.sr (t.input.get k))) (by omega)).set (2 * k.val + 1)
        (tapParity p.polyB (shiftIn t.sr (t.input.get k))) (by omega) }

/-- One turn of CONV_ENCODE's loop: CONV_STEP at `k`, after which `k` counts on (R84, R104; DEDUCED, log
entry 6). -/
def Txn.convTurn (p : Params) (t : Txn) (k : Fin 81) : Txn := { t.convStep p k with k := k.succ }

/-- CONV_ENCODE on the transaction's storage: `SR` starts at 0, then CONV_STEP for `k` = 0..80 (R84). -/
def Txn.convEncode (p : Params) (t : Txn) : Txn :=
  (List.finRange 81).foldl (Txn.convTurn p) { t with sr := 0, k := 0 }

/-- CONV_STEP at the step index the counter `k` holds (R82). At 81 there is no input bit to read (DESIGN CHOICE, log
entry 7). -/
def execConvStep (s : State) : Host.Outcome State Fault Refusal :=
  if h : s.txn.k.val < 81 then .next { s with txn := s.txn.convStep hardware ⟨s.txn.k.val, h⟩ }
  else .fault .convIndexOutOfRange

/-- CONV_ENCODE (R84). -/
def execConvEncode (s : State) : Host.Outcome State Fault Refusal :=
  .next { s with txn := s.txn.convEncode hardware }

end Sys2Proof.Machine
end

