-- ==== Sys2Proof/Machine/Interleaver.lean ====
section
/-! DEFINITION. The bit interleaver: INTERLEAVE (43_interleaver.md, R89..R93), in its scatter form. -/

namespace Sys2Proof.Machine

/-- `for k in 0..161: I[PERM[k]] <- C[k]`, on the buffer `buf` (R90). -/
def scatter (c buf : BitSeq 162) : BitSeq 162 :=
  (permTable.toList.zip c.toList).foldl (fun acc e => acc.setIfInBounds e.1.toNat e.2) buf

/-- INTERLEAVE on the transaction's storage: it reads `C` and writes `I` (R90). -/
def Txn.interleave (t : Txn) : Txn := { t with interleaved := scatter t.codeword t.interleaved }

/-- INTERLEAVE (R90). -/
def execInterleave (s : State) : Host.Outcome State Fault Refusal :=
  .next { s with txn := s.txn.interleave }

end Sys2Proof.Machine
end

