-- ==== Sys2Proof/Machine/Merger.lean ====
section
/-! DEFINITION. The symbol merger: MERGE_SYNC (44_symbol_merger.md, R94..R97). -/

namespace Sys2Proof.Machine

/-- `2*data + sync`: the data bit is bit 1 of the symbol and the sync bit is bit 0 (R95). -/
def symbolOf (data sync : Bool) : Symbol := Fin.ofNat 4 (2 * data.toNat + sync.toNat)

/-- MERGE_SYNC on the transaction's storage: it reads `I` and `SYNC` and writes `S` (R95). -/
def Txn.mergeSync (p : Params) (t : Txn) : Txn :=
  { t with symbols := Vector.zipWith symbolOf t.interleaved p.sync }

/-- MERGE_SYNC (R95). -/
def execMergeSync (s : State) : Host.Outcome State Fault Refusal :=
  .next { s with txn := s.txn.mergeSync hardware }

end Sys2Proof.Machine
end

