-- ==== Sys2Proof/Machine/Operands.lean ====
section
/-! DEFINITION. The classes of an input octet and the character code: all the forms an operand octet has (R44, R45). -/

namespace Sys2Proof.Machine

/-- The four classes of R44; each octet is in exactly one. -/
inductive OctetClass where
  | digit
  | locLetter
  | upperOnly
  | other
  deriving DecidableEq, Repr

/-- The class of an octet (R44). -/
def octetClass (b : Octet) : OctetClass :=
  if 0x30 ≤ b.toNat ∧ b.toNat ≤ 0x39 then .digit
  else if 0x41 ≤ b.toNat ∧ b.toNat ≤ 0x52 then .locLetter
  else if 0x53 ≤ b.toNat ∧ b.toNat ≤ 0x5A then .upperOnly
  else .other

/-- `isDigit(b)` (R44). -/
def isDigit (b : Octet) : Bool := octetClass b == .digit

/-- `isUpper(b)` (R44). -/
def isUpper (b : Octet) : Bool := octetClass b == .locLetter || octetClass b == .upperOnly

/-- `isLocLetter(b)` (R44). -/
def isLocLetter (b : Octet) : Bool := octetClass b == .locLetter

/-- The padding space (R45, R60). -/
def space : Octet := 0x20

/-- `code(b)` (R45): digits 0..9, capital letters 10..35, the padding space 36. No other octet reaches it: R58 and R61
reject those first, so the last branch is the space's (DESIGN CHOICE, log entry 15). -/
def code (b : Octet) : Nat :=
  if isDigit b then b.toNat - 0x30
  else if isUpper b then b.toNat - 0x41 + 10
  else 36

end Sys2Proof.Machine
end

