-- ==== Sys2Proof/Machine/Packer.lean ====
section
/-! DEFINITION. The field validator and packer: PACK_CALLSIGN, PACK_LOCATOR and PACK_POWER (40_packer.md, R56..R76). -/

namespace Sys2Proof.Machine

/-- Whether the text has a digit at index `i`. -/
def digitAt (s : List Octet) (i : Nat) : Bool :=
  match s[i]? with
  | some b => isDigit b
  | none => false

/-- `digitpos(s)` under either value of `DIGIT_SCAN`; none where it raises (R59). -/
def digitPos (scan : DigitScan) (s : List Octet) : Option Nat :=
  match scan with
  | .firstDigit => if digitAt s 1 then some 1 else if digitAt s 2 then some 2 else none
  | .index2First => if digitAt s 2 then some 2 else if digitAt s 1 then some 1 else none

/-- `CALL6`: `pad` spaces in front of `s`, then spaces up to 6 octets (R60). -/
def normalize (pad : Nat) (s : List Octet) : Vector Octet 6 :=
  Vector.ofFn fun i => (List.replicate pad space ++ s).getD i.val space

/-- Each of `CALL6[3]`, `CALL6[4]` and `CALL6[5]` is a capital letter or the padding space (R61). -/
def trailingOk (call6 : Vector Octet 6) : Bool :=
  (isUpper call6[3] || call6[3] == space) && (isUpper call6[4] || call6[4] == space) && (isUpper call6[5] || call6[5] == space)

/-- `callpack(CALL6)` (R63). R61 makes the three last codes at least 10. -/
def callPack (call6 : Vector Octet 6) : Nat :=
  ((((code call6[0] * 36 + code call6[1]) * 10 + code call6[2]) * 27 + (code call6[3] - 10)) * 27 + (code call6[4] - 10)) * 27 +
    (code call6[5] - 10)

/-- The checks of PACK_CALLSIGN in the order of R56, and the `CALL6` and `N` they lead to. -/
def callsignField (scan : DigitScan) (s : List Octet) : Except ErrorKind (Vector Octet 6 × BitVec 28) :=
  if ¬(4 ≤ s.length ∧ s.length ≤ 6) then .error .invalidCallsign
  else if ¬(s.all fun b => isDigit b || isUpper b) then .error .invalidCallsign
  else
    match digitPos scan s with
    | none => .error .invalidCallsign
    | some d =>
      if 2 - d + s.length > 6 then .error .invalidCallsign
      else if trailingOk (normalize (2 - d) s) then
        .ok (normalize (2 - d) s, BitVec.ofNat 28 (callPack (normalize (2 - d) s)))
      else .error .invalidCallsign

/-- `L` of a locator's two letters and two digits (R68). -/
def locatorPack (g0 g1 g2 g3 : Octet) : Nat :=
  (179 - (10 * (g0.toNat - 0x41) + (g2.toNat - 0x30))) * 180 + (10 * (g1.toNat - 0x41) + (g3.toNat - 0x30))

/-- The checks of PACK_LOCATOR and the `L` they lead to (R65..R68). -/
def locatorField (g : List Octet) : Except ErrorKind (BitVec 15) :=
  match g with
  | [g0, g1, g2, g3] =>
    if isLocLetter g0 && isLocLetter g1 && isDigit g2 && isDigit g3 then
      .ok (BitVec.ofNat 15 (locatorPack g0 g1 g2 g3))
    else .error .invalidGrid
  | _ => .error .invalidGrid

/-- The largest entry of `PSTEP` not above `power` (R73), for a power of at least 0. -/
def powerStep (power : Int) : Nat :=
  pstepTable.toList.foldl (fun best v => if (v.toNat : Int) ≤ power then v.toNat else best) 0

/-- The check of PACK_POWER and the `P` it leads to (R70..R74). -/
def powerField (power : Int) : Except ErrorKind (BitVec 7) :=
  if power < 0 ∨ power > 60 then .error .invalidPower
  else .ok (BitVec.ofNat 7 (powerStep power + 64))

/-- PACK_CALLSIGN on the transaction's storage: it reads the request's callsign and writes `CALL6` and `N` (R56). -/
def Txn.packCallsign (p : Params) (t : Txn) : Except ErrorKind Txn :=
  match callsignField p.digitScan t.request.callsign with
  | .ok (c, n) => .ok { t with call6 := c, nField := n }
  | .error e => .error e

/-- PACK_LOCATOR on the transaction's storage: it reads the request's locator and writes `L` (R65). -/
def Txn.packLocator (t : Txn) : Except ErrorKind Txn :=
  match locatorField t.request.locator with
  | .ok l => .ok { t with lField := l }
  | .error e => .error e

/-- PACK_POWER on the transaction's storage: it reads the request's power and writes `P` (R70). -/
def Txn.packPower (t : Txn) : Except ErrorKind Txn :=
  match powerField t.request.power with
  | .ok q => .ok { t with pField := q }
  | .error e => .error e

/-- PACK_CALLSIGN (R56). -/
def execPackCallsign (s : State) : Host.Outcome State Fault Refusal :=
  .next (s.commit (s.txn.packCallsign hardware))

/-- PACK_LOCATOR (R65). -/
def execPackLocator (s : State) : Host.Outcome State Fault Refusal :=
  .next (s.commit s.txn.packLocator)

/-- PACK_POWER (R70). -/
def execPackPower (s : State) : Host.Outcome State Fault Refusal :=
  .next (s.commit s.txn.packPower)

end Sys2Proof.Machine
end

