-- ==== Sys2Proof/Machine/Encode.lean ====
section
/-! DEFINITION. The ENCODE transaction (45_encode.md, R98..R105), in the pure form of R22. -/

namespace Sys2Proof.Machine

/-- The three packing stages, callsign first, then locator, then power; the first error ends them (R98, R99). -/
def Txn.pack (p : Params) (t : Txn) : Except ErrorKind Txn :=
  match t.packCallsign p with
  | .error e => .error e
  | .ok t1 =>
    match t1.packLocator with
    | .error e => .error e
    | .ok t2 => t2.packPower

/-- The stages after packing, which cannot fail (R98, R107). -/
def Txn.transmit (p : Params) (t : Txn) : Txn := ((t.assemble.convEncode p).interleave).mergeSync p

/-- The response to a request (R98). -/
def encodeRequest (p : Params) (r : Request) : Response :=
  match (Txn.start r).pack p with
  | .ok t => .ok (t.transmit p).symbols
  | .error e => .err e

/-- ENCODE: the whole transaction for `r`, in one step. The response is delivered and all storage is discarded
(R19, R27, R98). -/
def execEncode (r : Request) (s : State) : Host.Outcome State Fault Refusal :=
  .next (s.respond (encodeRequest hardware r)).discard

end Sys2Proof.Machine
end

