-- ==== Sys2Proof/Machine/Dispatch.lean ====
section
/-! DEFINITION. One arm for each operation of the operation map (R52). -/

namespace Sys2Proof.Machine

def exec (i : Instr) (s : State) : Host.Outcome State Fault Refusal :=
  match i with
  | .encode r => Sys2Proof.Machine.execEncode r s
  | .packCallsign => Sys2Proof.Machine.execPackCallsign s
  | .packLocator => Sys2Proof.Machine.execPackLocator s
  | .packPower => Sys2Proof.Machine.execPackPower s
  | .assemble => Sys2Proof.Machine.execAssemble s
  | .convStep => Sys2Proof.Machine.execConvStep s
  | .convEncode => Sys2Proof.Machine.execConvEncode s
  | .interleave => Sys2Proof.Machine.execInterleave s
  | .mergeSync => Sys2Proof.Machine.execMergeSync s

end Sys2Proof.Machine
end

