-- ==== Sys2Proof/WellFormed.lean ====
section
/-! DEFINITION. The checks on operation identifiers, requests and parameters. In the abstract model every octet
sequence and every integer makes a valid request (R51, R54); the width check is that of a hardware port (R25). -/

namespace Sys2Proof

/-- The identifiers 0..8 name operations; 9..15 name nothing (R52, R53). -/
def opIdAssigned (op : OpId) : Bool := decide (op.toNat < 9)

/-- The power fits a two's complement port of `width` bits (R25). -/
def Request.fitsPort (width : Nat) (r : Request) : Bool :=
  decide (0 < width ∧ -(2 ^ (width - 1) : Int) ≤ r.power ∧ r.power < (2 ^ (width - 1) : Int))

/-- An instruction can be presented on a hardware port whose power field has `width` bits. -/
def Instr.wellFormed (width : Nat) : Instr → Bool
  | .encode r => r.fitsPort width
  | .packCallsign => true
  | .packLocator => true
  | .packPower => true
  | .assemble => true
  | .convStep => true
  | .convEncode => true
  | .interleave => true
  | .mergeSync => true

/-- A hardware port must have `POWER_WIDTH >= 7` (R7). -/
def Params.wellFormed (p : Params) : Bool := decide (7 ≤ p.powerWidth)

end Sys2Proof
end

