-- ==== Sys2Proof/Decode.lean ====
section
/-! DEFINITION. The operation map read as a decoder and an encoder (R42, R52, R53), and the power field of a hardware
port (R25). A request has no opcode: `op_id` is the sequencer's own label, and ENCODE's operands are the request
record. -/

namespace Sys2Proof

/-- Why no operation can be read. -/
inductive DecodeError where
  /-- The identifier is one of 9..15, which name nothing (R53). -/
  | unassignedOp (op : OpId)
  /-- The identifier is ENCODE and the host has issued no request: there is nothing to read yet. -/
  | noRequest
  deriving DecidableEq, Repr

/-- The identifier of each operation (R52). -/
def Instr.opId : Instr → OpId
  | .encode _ => 0
  | .packCallsign => 1
  | .packLocator => 2
  | .packPower => 3
  | .assemble => 4
  | .convStep => 5
  | .convEncode => 6
  | .interleave => 7
  | .mergeSync => 8

/-- The operation that `op` names, with the requests that are left. ENCODE takes the oldest request as its operands
(R42); a stage takes none (R52). -/
def decode (op : OpId) (requests : List Request) : Except DecodeError (Instr × List Request) :=
  match op.toNat with
  | 0 =>
    match requests with
    | [] => .error .noRequest
    | r :: rest => .ok (.encode r, rest)
  | 1 => .ok (.packCallsign, requests)
  | 2 => .ok (.packLocator, requests)
  | 3 => .ok (.packPower, requests)
  | 4 => .ok (.assemble, requests)
  | 5 => .ok (.convStep, requests)
  | 6 => .ok (.convEncode, requests)
  | 7 => .ok (.interleave, requests)
  | 8 => .ok (.mergeSync, requests)
  | _ => .error (.unassignedOp op)

/-- An operation's identifier and the request record it carries, if any (R42, R52). -/
def encode (i : Instr) : OpId × List Request :=
  match i with
  | .encode r => (i.opId, [r])
  | .packCallsign => (i.opId, [])
  | .packLocator => (i.opId, [])
  | .packPower => (i.opId, [])
  | .assemble => (i.opId, [])
  | .convStep => (i.opId, [])
  | .convEncode => (i.opId, [])
  | .interleave => (i.opId, [])
  | .mergeSync => (i.opId, [])

/-- The identifier in a word of the opcode table: bits 3..0 (R52), bits at or above `nbits` being 0 (DESIGN CHOICE,
log entry 3). -/
def opIdOfWord (nbits w : Nat) : OpId := BitVec.ofNat 4 (w % 2 ^ nbits)

/-- The operation of an opcode-table word. The table gives ENCODE's operands no bits, so its request is the zero one
(DESIGN CHOICE, log entry 3). -/
def decodeTableWord (nbits w : Nat) : Option Instr :=
  match decode (opIdOfWord nbits w) [Request.zero] with
  | .ok (i, _) => some i
  | .error _ => none

/-- The power a hardware port of `width` bits carries: the two's complement value of its lines (R25, R71; log entry 11). -/
def powerOfPort {width : Nat} (lines : BitVec width) : Int := lines.toInt

/-- The lines on which a power is presented to a port of `width` bits. -/
def powerToPort (width : Nat) (power : Int) : BitVec width := BitVec.ofInt width power

end Sys2Proof
end

