-- ==== Sys2Proof/Machine/Sequencer.lean ====
section
/-! DEFINITION. The sequencer: which operation the next step performs, and what follows an operation (R22, R104). -/

namespace Sys2Proof.Machine

/-- What the next step does. -/
inductive Fetch where
  /-- The transaction is over: its storage is discarded (R27, R105). -/
  | finish
  /-- The last CONV_STEP is behind: `STAGE` goes from CONV to INTERLEAVE (R104). -/
  | leaveConv
  /-- No request has been issued: the block waits. -/
  | wait
  /-- A transaction for `r` begins, in the small-step form; `s` is the state without that request. -/
  | start (r : Request) (s : State)
  /-- The operation `i` runs on `s`. -/
  | run (i : Instr) (s : State)
  /-- The operation register names no operation (R53). -/
  | unassigned (op : OpId)
  deriving DecidableEq, Repr

/-- The encoder's stage has nothing left to do: CONV_STEP would be next, and `k` = 81 (R104). -/
def State.convDone (s : State) : Bool :=
  decide (s.txn.stage = .conv ∧ s.op = Instr.convStep.opId ∧ s.txn.k = 81)

/-- What the next step does, by `STAGE`, `k`, the operation register and the requests issued (R104). -/
def State.fetch (s : State) : Fetch :=
  if s.txn.stage = .done then .finish
  else if s.convDone then .leaveConv
  else
    match decode s.op s.requests with
    | .error .noRequest => .wait
    | .error (.unassignedOp op) => .unassigned op
    | .ok (.encode r, rest) =>
      if s.stepping = .staged then .start r { s with requests := rest } else .run (.encode r) { s with requests := rest }
    | .ok (i, rest) => .run i { s with requests := rest }

/-- `STAGE` becomes `stage` and `i` is the next operation. -/
def State.enter (s : State) (stage : Stage) (i : Instr) : State :=
  { s with op := i.opId, txn := { s.txn with stage := stage } }

/-- `k <- k + 1` (R104), for a `k` of 0..80. -/
def Txn.countStep (t : Txn) : Txn :=
  if h : t.k.val < 81 then { t with k := ⟨t.k.val + 1, by omega⟩ } else t

/-- What the sequencer does after the operation `i` has given `s` (R104). After a raise it does nothing more. The stage
CONV is left by a step of its own, once `k` is 81; CONV_ENCODE leaves it there (log entry 6). -/
def State.advance (s : State) (i : Instr) : State :=
  if s.txn.stage = .done then s
  else
    match i with
    | .encode _ => s
    | .packCallsign => s.enter .pack .packLocator
    | .packLocator => s.enter .pack .packPower
    | .packPower => s.enter .assemble .assemble
    | .assemble => { s with txn := { s.txn with sr := 0, k := 0 } }.enter .conv .convStep
    | .convStep => { s with txn := s.txn.countStep }.enter .conv .convStep
    | .convEncode => s.enter .conv .convStep
    | .interleave => s.enter .merge .mergeSync
    | .mergeSync => s.respond (.ok s.txn.symbols)

/-- The stage in which the sequencer issues an operation (R104). -/
def stageOf : Instr → Stage
  | .encode _ => .pack
  | .packCallsign => .pack
  | .packLocator => .pack
  | .packPower => .pack
  | .assemble => .assemble
  | .convStep => .conv
  | .convEncode => .conv
  | .interleave => .interleave
  | .mergeSync => .merge

/-- The state in which the next step runs `i`: the operation register and `STAGE` select it, and ENCODE's request is
the oldest one issued. CONV_STEP has no step index 81, so a `k` of 81 goes back to 0 for it (log entry 10). -/
def State.select (s : State) (i : Instr) : State :=
  match i with
  | .encode r => { s with requests := r :: s.requests, stepping := .atomic }.enter .pack (.encode r)
  | .packCallsign => s.enter (stageOf i) i
  | .packLocator => s.enter (stageOf i) i
  | .packPower => s.enter (stageOf i) i
  | .assemble => s.enter (stageOf i) i
  | .convStep => { s with txn := { s.txn with k := if s.txn.k = 81 then 0 else s.txn.k } }.enter (stageOf i) i
  | .convEncode => s.enter (stageOf i) i
  | .interleave => s.enter (stageOf i) i
  | .mergeSync => s.enter (stageOf i) i

end Sys2Proof.Machine
end

