-- ==== Sys2Proof/Machine/Step.lean ====
section
/-! DEFINITION. One step of the machine (R19, R104). -/

namespace Sys2Proof.Machine

/-- One step: the fetched operation, and what the sequencer does after it. -/
def step (s : State) : Host.Outcome State Fault Refusal :=
  match s.fetch with
  | .finish => .next s.discard
  | .leaveConv => .next (s.enter .interleave .interleave)
  | .wait => .next s
  | .start r s' => .next (s'.begin r)
  | .unassigned op => .refused (.unassignedOp op)
  | .run i s' =>
    match exec i s' with
    | .next t => .next (t.advance i)
    | .fault f => .fault f
    | .refused r => .refused r

/-- `s` with the operation of an opcode-table word selected as the next one. A word that names nothing is left in the
operation register, which `step` then refuses (R53; log entry 10). -/
def State.withFetchWord (s : State) (nbits w : Nat) : State :=
  match decodeTableWord nbits w with
  | some i => s.select i
  | none => { s with op := opIdOfWord nbits w, txn := { s.txn with stage := .pack } }

end Sys2Proof.Machine
end

