-- ==== Sys2Proof/Machine/Flags.lean ====
section
/-! DEFINITION. The block has no flags (R23). The one status it produces is the status code of a response (R26, R106). -/

namespace Sys2Proof.Machine

/-- The status code of an error (R26, R106). -/
def ErrorKind.status : ErrorKind → BitVec 2
  | .invalidCallsign => 1
  | .invalidGrid => 2
  | .invalidPower => 3

/-- The 2-bit `status` of a response: 0 is OK (R26). -/
def Response.status : Response → BitVec 2
  | .ok _ => 0
  | .err e => e.status

end Sys2Proof.Machine
end

