-- ==== Sys2Proof/Machine/Port.lean ====
section
/-! DEFINITION. Format RSP: the output lines of a hardware realisation (R43), and the host's reading of them (R117). -/

namespace Sys2Proof.Machine

/-- The lines of R43. -/
structure Port where
  /-- `STATUS`. -/
  status : BitVec 2
  /-- `SYMBOLS`: symbol `i` at bits `[2i+1:2i]`. -/
  symbols : BitVec 324
  deriving DecidableEq, Repr

/-- Symbol `S[i]` at bits `[2i+1:2i]` of a 324-bit word, for every `i` (R43). -/
def symbolsWord (symbols : Vector Symbol 162) : BitVec 324 :=
  BitVec.ofNat 324 (symbols.toList.foldr (fun s high => s.val + 4 * high) 0)

/-- The symbol at bits `[2i+1:2i]` (R43). -/
def symbolAt (w : BitVec 324) (i : Fin 162) : Symbol :=
  Fin.ofNat 4 (w.toNat >>> (2 * i.val))

/-- The lines on which the `n`-th response is delivered. When its status is not OK the symbol lines are a free value
(R43, U1; log entry 9). -/
def Response.toPort (n : Nat) : Response → Port
  | .ok symbols => { status := 0, symbols := symbolsWord symbols }
  | .err e => { status := e.status, symbols := Config.freeSymbols n }

/-- What a host reads from the lines, the symbols only with status OK, as R117 binds it to. -/
def Port.read (lines : Port) : Response :=
  match lines.status.toNat with
  | 0 => .ok (Vector.ofFn (symbolAt lines.symbols))
  | 1 => .err .invalidCallsign
  | 2 => .err .invalidGrid
  | _ => .err .invalidPower

/-- The lines on which the response number `n` of a state was delivered, if it has been (R105). -/
def State.portOf (s : State) (n : Nat) : Option Port := (s.responses[n]?).map (Response.toPort n)

end Sys2Proof.Machine
end

