-- ==== Sys2Proof/Safety.lean ====
section
/-! DEFINITION. The terms the statements use: which requests are valid, what the codeword and the symbols of a message
are said without a loop, and which states belong to a run of the sequencer. -/

namespace Sys2Proof.Machine

/-! ### Valid requests -/

/-- A capital letter or a digit (R58). -/
def isAlnum (b : Octet) : Bool := isDigit b || isUpper b

/-- The pattern behind R57..R61: `s` is one or two letters or digits, then its digit `d`, then one to three letters,
4 to 6 octets in all. With two octets in front, `FIRST_DIGIT` needs the second of them to be no digit (R59). -/
def CallsignShape (scan : DigitScan) (s front : List Octet) (d : Octet) (tail : List Octet) : Prop :=
  s = front ++ d :: tail ∧ 4 ≤ s.length ∧ (front.length = 1 ∨ front.length = 2) ∧ front.all isAlnum = true ∧
    isDigit d = true ∧ 1 ≤ tail.length ∧ tail.length ≤ 3 ∧ tail.all isUpper = true ∧
    (scan = .firstDigit → digitAt front 1 = false)

/-- The callsign passes every check of R57..R61. -/
def ValidCallsign (scan : DigitScan) (s : List Octet) : Prop := ∃ front d tail, CallsignShape scan s front d tail

/-- The locator passes the checks of R66 and R67. -/
def ValidLocator (g : List Octet) : Prop :=
  ∃ g0 g1 g2 g3, g = [g0, g1, g2, g3] ∧ isLocLetter g0 = true ∧ isLocLetter g1 = true ∧ isDigit g2 = true ∧
    isDigit g3 = true

/-- The power passes the check of R71. -/
def ValidPower (power : Int) : Prop := 0 ≤ power ∧ power ≤ 60

/-- The request passes every check. -/
def ValidRequest (r : Request) : Prop :=
  ValidCallsign .firstDigit r.callsign ∧ ValidLocator r.locator ∧ ValidPower r.power

/-- `v` is a value of the discrete power scale: 0..60 with last digit 0, 3 or 7 (R72). -/
def IsPowerStep (v : Nat) : Prop := v ≤ 60 ∧ (v % 10 = 0 ∨ v % 10 = 3 ∨ v % 10 = 7)

/-- `v` is the step that `power` is rounded down to (R73). -/
def RoundsTo (power : Int) (v : Nat) : Prop :=
  IsPowerStep v ∧ (v : Int) ≤ power ∧ ∀ v', IsPowerStep v' → (v' : Int) ≤ power → v' ≤ v

/-! ### Codeword and symbols, without a loop -/

/-- The input bit `t` steps before step `j`, 0 before the first (R87). -/
def inputBefore (u : BitSeq 81) (j t : Nat) : Bool := decide (t ≤ j) && (u[j - t]?).getD false

/-- The output bit of a polynomial at step `j`: the XOR of the input bits its LSB-orientation mask selects, mask bit `t`
selecting the input of `t` steps before (R86, R87). -/
def outputBit (poly : BitVec 32) (u : BitSeq 81) (j : Nat) : Bool :=
  xorAll ((List.range 32).map fun t => poly.getLsbD t && inputBefore u j t)

/-- The codeword of an encoder input: at each step polynomial A's bit, then polynomial B's (R50, R86). -/
def codewordOf (p : Params) (u : BitSeq 81) : BitSeq 162 :=
  Vector.ofFn fun i => outputBit (if i.val % 2 = 0 then p.polyA else p.polyB) u (i.val / 2)

/-- `w` is the interleaved form of the codeword `c` (R90). -/
def Interleaves (c w : BitSeq 162) : Prop := ∀ k : Fin 162, w[(permTable.get k).toNat]? = some (c.get k)

/-- `symbols` is the encoding of the request `r`: every stage's rule, read as a relation (R46, R47, R48, R49, R50, R86,
R90, R95). -/
def Encodes (p : Params) (r : Request) (symbols : Vector Symbol 162) : Prop :=
  ∃ c n l q w, callsignField p.digitScan r.callsign = .ok (c, n) ∧ locatorField r.locator = .ok l ∧
    powerField r.power = .ok q ∧ Interleaves (codewordOf p (encoderInput (messageWord n l q))) w ∧
    ∀ i : Fin 162, (symbols.get i).val = 2 * (w.get i).toNat + (p.sync.get i).toNat

/-! ### The sequencer's states -/

/-- No transaction is in progress and the block waits for a request (R30). -/
def State.Idle (s : State) : Prop := s.op = 0 ∧ s.txn = Txn.idle

/-- The callsign's field holds what PACK_CALLSIGN gives for the request. -/
def Txn.CallsignPacked (t : Txn) : Prop :=
  callsignField hardware.digitScan t.request.callsign = .ok (t.call6, t.nField)

/-- The locator's field holds what PACK_LOCATOR gives for the request. -/
def Txn.LocatorPacked (t : Txn) : Prop := locatorField t.request.locator = .ok t.lField

/-- All three fields hold what the packing stages give for the request. -/
def Txn.Packed (t : Txn) : Prop := t.CallsignPacked ∧ t.LocatorPacked ∧ powerField t.request.power = .ok t.pField

/-- The message word and the encoder input are those of the fields (R77). -/
def Txn.Assembled (t : Txn) : Prop :=
  t.Packed ∧ t.word = messageWord t.nField t.lField t.pField ∧ t.input = encoderInput t.word

/-- After `k` steps: the register holds the last 32 inputs, the newest at its most significant end, and the first `2k`
codeword bits are those of the input (R82, R87). -/
def Txn.PartlyEncoded (p : Params) (t : Txn) : Prop :=
  (∀ i, i < 32 → t.sr.getLsbD (31 - i) = (decide (i < t.k.val) && (t.input[t.k.val - 1 - i]?).getD false)) ∧
    ∀ i : Fin 162, i.val < 2 * t.k.val → t.codeword.get i = (codewordOf p t.input).get i

/-- The whole codeword is that of the input. -/
def Txn.Encoded (t : Txn) : Prop := t.k.val = 81 ∧ t.codeword = codewordOf hardware t.input

/-- The states of a run of the sequencer: what each stage holds when it begins, and the right response once the
transaction is over (R104). -/
def State.Coherent (s : State) : Prop :=
  match s.txn.stage with
  | .pack =>
    s.Idle ∨ (s.op = 1 ∧ s.txn = Txn.start s.txn.request) ∨ (s.op = 2 ∧ s.txn.CallsignPacked) ∨
      (s.op = 3 ∧ s.txn.CallsignPacked ∧ s.txn.LocatorPacked)
  | .assemble => s.op = 4 ∧ s.txn.Packed
  | .conv => s.op = 5 ∧ s.txn.Assembled ∧ s.txn.PartlyEncoded hardware
  | .interleave => s.op = 7 ∧ s.txn.Assembled ∧ s.txn.Encoded
  | .merge => s.op = 8 ∧ s.txn.Assembled ∧ s.txn.Encoded ∧ Interleaves s.txn.codeword s.txn.interleaved
  | .done => s.responses.getLast? = some (encodeRequest hardware s.txn.request)

/-- Every delivered symbol's low bit is the sync bit of its index (R95, R97). -/
def State.SyncCarried (s : State) : Prop :=
  ∀ symbols, Response.ok symbols ∈ s.responses →
    ∀ i : Fin 162, (symbols.get i).val % 2 = (hardware.sync.get i).toNat

/-- 1 while a request has been taken and not yet answered, else 0. -/
def State.unanswered (s : State) : Nat := if s.txn.stage ≠ .done ∧ s.op ≠ 0 then 1 else 0

/-- A bound on the steps of the transaction in progress, counting the one that discards its storage (R103, R104). -/
def State.stepsLeft (s : State) : Nat :=
  match s.txn.stage with
  | .pack => 90 - s.op.toNat
  | .assemble => 86
  | .conv => 85 - s.txn.k.val
  | .interleave => 3
  | .merge => 2
  | .done => 1

end Sys2Proof.Machine
end

