-- ==== Sys2Proof/Certificates/Slice0/Obligations.lean ====
section
/-! DEFINITION. The statements about the machine. Each docstring names the rules of spec/ it formalises. -/

open Sys2Proof Sys2Proof.Machine

/-! ### The operation map -/

/-- The words of the opcode table, bits 3..0 as R52 gives them, decode to the operation they stand for. ENCODE's
operands have no bits in the table, so its request is the zero one (log entry 3). -/
def Obligations.OpcodeTableWordsDecode : Prop :=
  decodeTableWord 8 0b0000 = some (.encode Request.zero) ∧ decodeTableWord 8 0b0001 = some .packCallsign ∧
  decodeTableWord 8 0b0010 = some .packLocator ∧ decodeTableWord 8 0b0011 = some .packPower ∧
  decodeTableWord 8 0b0100 = some .assemble ∧ decodeTableWord 8 0b0101 = some .convStep ∧
  decodeTableWord 8 0b0110 = some .convEncode ∧ decodeTableWord 8 0b0111 = some .interleave ∧
  decodeTableWord 8 0b1000 = some .mergeSync

/-- Decoding undoes encoding for every operation, every request record and whatever requests stand behind it; and
whatever decodes is the encoding of what it decodes to (R42, R52). -/
def Obligations.DecodeUndoesEncode : Prop :=
  (∀ (i : Instr) (rest : List Request), decode (encode i).1 ((encode i).2 ++ rest) = .ok (i, rest)) ∧
  ∀ (op : OpId) (requests rest : List Request) (i : Instr), decode op requests = .ok (i, rest) →
    (encode i).1 = op ∧ (encode i).2 ++ rest = requests

/-- The identifiers 9..15 name nothing: the decoder rejects them and a step that meets one is refused by name (R53). -/
def Obligations.UnassignedOpIdsAreRefused : Prop :=
  ∀ s : State, s.txn.stage ≠ .done → 9 ≤ s.op.toNat →
    decode s.op s.requests = .error (.unassignedOp s.op) ∧ step s = .refused (.unassignedOp s.op)

/-- A power that fits a two's complement port of any width comes through the port unchanged (R25). -/
def Obligations.PowerPortRoundTrip : Prop :=
  ∀ (width : Nat) (r : Request), r.fitsPort width = true → powerOfPort (powerToPort width r.power) = r.power

/-- Every response read from its output lines is itself, whatever the symbol lines show with an error; on the lines of
an `ok` response symbol `i` is bits `2i+1` and `2i`, and the status codes are 0 to 3 (R43). -/
def Obligations.ResponsePortRoundTrip : Prop :=
  (∀ (n : Nat) (r : Response), (r.toPort n).read = r) ∧
  (∀ (n : Nat) (symbols : Vector Symbol 162), ((Response.ok symbols).toPort n).status = 0 ∧
    ((Response.err .invalidCallsign).toPort n).status = 1 ∧ ((Response.err .invalidGrid).toPort n).status = 2 ∧
    ((Response.err .invalidPower).toPort n).status = 3) ∧
  ∀ (n : Nat) (symbols : Vector Symbol 162) (i : Fin 162),
    ((Response.ok symbols).toPort n).symbols.getLsbD (2 * i.val) = decide ((symbols.get i).val % 2 = 1) ∧
    ((Response.ok symbols).toPort n).symbols.getLsbD (2 * i.val + 1) = decide (2 ≤ (symbols.get i).val)

/-! ### Reset and the sequencer -/

/-- After reset no transaction is in progress and no response is pending; the first request issued is answered by the
next step with no initialisation step (R30, R119). -/
def Obligations.ResetAnswersTheFirstRequest : Prop :=
  State.reset.requests = [] ∧ State.reset.responses = [] ∧ State.reset.Idle ∧
  ∀ r : Request, step (State.reset.issue r) = .next { State.reset with responses := [encodeRequest hardware r] }

/-- The step that takes a request in the small-step form begins its transaction with `SR` = 0, `k` = 0 and `STAGE` =
PACK, its first stage next, and has answered nothing yet (R30, R104). -/
def Obligations.StagedTransactionStartsCleared : Prop :=
  ∀ (s : State) (r : Request) (rest : List Request), s.Idle → s.stepping = .staged → s.requests = r :: rest →
    ∃ t, step s = .next t ∧ t.txn.request = r ∧ t.txn.sr = 0 ∧ t.txn.k = 0 ∧ t.txn.stage = .pack ∧
      t.op = Instr.packCallsign.opId ∧ t.requests = rest ∧ t.responses = s.responses

/-- A block with no request and no transaction in progress waits: its state stays as it is (R19). -/
def Obligations.IdleBlockWaits : Prop :=
  ∀ s : State, s.Idle → s.requests = [] → step s = .next s

/-- Once a transaction is over, the next step discards all its storage and nothing else; discarding, which is also all
that a reset during a transaction does, delivers no response (R27, R110, R118). -/
def Obligations.FinishedTransactionIsDiscarded : Prop :=
  (∀ s : State, s.txn.stage = .done →
    step s = .next { s with op := 0, txn := Txn.idle }) ∧
  ∀ s : State, s.discard.responses = s.responses ∧ s.discard.requests = s.requests ∧ s.discard.Idle

/-- A step runs the decoded operation: where the transaction is not over, the encoder's stage is not just to be left (its
CONV_STEPs done, `k` = 81) and the operation register and the requests decode to `i`, the step is `exec i`, followed by what
the sequencer does after `i`. ENCODE is run so in the atomic form; in the small-step form its stages are (R22, R104; log
entry 1). -/
def Obligations.StepRunsTheDecodedOperation : Prop :=
  ∀ (s : State) (i : Instr) (rest : List Request), s.txn.stage ≠ .done →
    ¬(s.txn.stage = .conv ∧ s.op = Instr.convStep.opId ∧ s.txn.k = 81) → decode s.op s.requests = .ok (i, rest) →
    (s.stepping = .atomic ∨ ∀ r, i ≠ .encode r) →
    step s =
      match exec i { s with requests := rest } with
      | .next t => .next (t.advance i)
      | .fault f => .fault f
      | .refused r => .refused r

/-- What the sequencer does after each operation that has not raised, and the step of its own by which it leaves the
encoder's stage once `k` is 81: the transitions of R104. The operation register, and that CONV_ENCODE leaves the block in
that stage, are the model's choice (log entries 1 and 6). -/
def Obligations.SequencerFollowsTheStages : Prop :=
  (∀ s : State, s.txn.stage = .conv → s.op = Instr.convStep.opId → s.txn.k = 81 →
    step s = .next { s with op := 7, txn := { s.txn with stage := .interleave } }) ∧
  ∀ s : State, s.txn.stage ≠ .done →
    (∀ r, s.advance (.encode r) = s) ∧
    s.advance .packCallsign = { s with op := 2, txn := { s.txn with stage := .pack } } ∧
    s.advance .packLocator = { s with op := 3, txn := { s.txn with stage := .pack } } ∧
    s.advance .packPower = { s with op := 4, txn := { s.txn with stage := .assemble } } ∧
    s.advance .assemble = { s with op := 5, txn := { s.txn with stage := .conv, sr := 0, k := 0 } } ∧
    (∀ k : Fin 81, s.txn.k = k.castSucc →
      s.advance .convStep = { s with op := 5, txn := { s.txn with stage := .conv, k := k.succ } }) ∧
    s.advance .convEncode = { s with op := 5, txn := { s.txn with stage := .conv } } ∧
    s.advance .interleave = { s with op := 8, txn := { s.txn with stage := .merge } } ∧
    s.advance .mergeSync =
      { s with responses := s.responses ++ [.ok s.txn.symbols], txn := { s.txn with stage := .done } }

/-- Nothing but CONV_STEP at `k` = 81 makes an operation stop. Nothing stops a step but an unassigned identifier, and that
CONV_STEP where it is placed in another stage than its own: in its own stage the step goes on to INTERLEAVE (R53, R104,
R107; log entry 7). -/
def Obligations.OnlyNamedStops : Prop :=
  (∀ (i : Instr) (s : State), (∃ t, exec i s = .next t) ∨
    (i = .convStep ∧ s.txn.k = 81 ∧ exec i s = .fault .convIndexOutOfRange)) ∧
  ∀ s : State, (∃ t, step s = .next t) ∨
    (s.txn.stage ≠ .conv ∧ s.op = Instr.convStep.opId ∧ s.txn.k = 81 ∧ step s = .fault .convIndexOutOfRange) ∨
    (9 ≤ s.op.toNat ∧ step s = .refused (.unassignedOp s.op))

/-! ### Octets and the callsign -/

/-- Each octet is in exactly one class, by the ranges of R44, and the three predicates follow the classes. -/
def Obligations.OctetClassesPartition : Prop :=
  ∀ b : Octet,
    (octetClass b = .digit ↔ 0x30 ≤ b.toNat ∧ b.toNat ≤ 0x39) ∧
    (octetClass b = .locLetter ↔ 0x41 ≤ b.toNat ∧ b.toNat ≤ 0x52) ∧
    (octetClass b = .upperOnly ↔ 0x53 ≤ b.toNat ∧ b.toNat ≤ 0x5A) ∧
    (octetClass b = .other ↔ b.toNat < 0x30 ∨ (0x39 < b.toNat ∧ b.toNat < 0x41) ∨ 0x5A < b.toNat) ∧
    (isDigit b = true ↔ octetClass b = .digit) ∧
    (isUpper b = true ↔ octetClass b = .locLetter ∨ octetClass b = .upperOnly) ∧
    (isLocLetter b = true ↔ octetClass b = .locLetter)

/-- The character code, and that no octet but a digit, a capital letter or the padding space reaches it (R45). -/
def Obligations.CharacterCodes : Prop :=
  (∀ b : Octet, (isDigit b = true → code b = b.toNat - 0x30 ∧ code b ≤ 9) ∧
    (isUpper b = true → code b = b.toNat - 0x41 + 10 ∧ 10 ≤ code b ∧ code b ≤ 35)) ∧
  code 0x20 = 36 ∧
  ∀ (scan : DigitScan) (s : List Octet) (call6 : Vector Octet 6) (n : BitVec 28),
    callsignField scan s = .ok (call6, n) →
    ∀ i : Fin 6, isDigit (call6.get i) = true ∨ isUpper (call6.get i) = true ∨ call6.get i = 0x20

/-- A callsign whose length is not 4, 5 or 6 makes PACK_CALLSIGN raise InvalidCallsign, and so does one with an octet that
is neither a digit nor a capital letter; no case is folded (R57, R58). Every callsign that fails one of the checks of R57 to R61
gets InvalidCallsign as its one response, and `STAGE` becomes DONE. -/
def Obligations.CallsignLengthAndAlphabetChecked : Prop :=
  (∀ s : State, ¬(s.txn.request.callsign.length = 4 ∨ s.txn.request.callsign.length = 5 ∨
      s.txn.request.callsign.length = 6) →
    exec .packCallsign s = .next (s.raise .invalidCallsign)) ∧
  (∀ (s : State) (b : Octet), b ∈ s.txn.request.callsign → isDigit b = false → isUpper b = false →
    exec .packCallsign s = .next (s.raise .invalidCallsign)) ∧
  ∀ s : State, ¬ValidCallsign .firstDigit s.txn.request.callsign →
    ∃ t, exec .packCallsign s = .next t ∧ t.responses = s.responses ++ [.err .invalidCallsign] ∧ t.txn.stage = .done

/-- The digit position inside the window of indices 1 and 2, for both values of `DIGIT_SCAN`; without a digit there the
callsign is rejected. With digits at both, `FIRST_DIGIT` rejects the callsign, and `INDEX2_FIRST` encodes "A61AB" (R59). -/
def Obligations.DigitPositionByScan : Prop :=
  (∀ (b0 b1 b2 : Octet) (rest : List Octet),
    digitPos .firstDigit (b0 :: b1 :: b2 :: rest) =
      (if isDigit b1 = true then some 1 else if isDigit b2 = true then some 2 else none) ∧
    digitPos .index2First (b0 :: b1 :: b2 :: rest) =
      (if isDigit b2 = true then some 2 else if isDigit b1 = true then some 1 else none)) ∧
  (∀ (scan : DigitScan) (s : List Octet), digitPos scan s = none →
    callsignField scan s = .error .invalidCallsign) ∧
  (∀ (b0 b1 b2 : Octet) (rest : List Octet), isDigit b1 = true → isDigit b2 = true →
    callsignField .firstDigit (b0 :: b1 :: b2 :: rest) = .error .invalidCallsign) ∧
  (∃ call6, callsignField .index2First [0x41, 0x36, 0x31, 0x41, 0x42] = .ok (call6, 72059516)) ∧
  hardware.digitScan = .firstDigit

/-- The normalized callsign: `2 - d` spaces in front put the digit at index 2, and spaces follow up to 6 octets; a
callsign that does not fit is rejected (R60). -/
def Obligations.CallsignIsRightAligned : Prop :=
  ∀ (scan : DigitScan) (s : List Octet) (d : Nat), digitPos scan s = some d →
    (6 < 2 - d + s.length → callsignField scan s = .error .invalidCallsign) ∧
    ∀ (call6 : Vector Octet 6) (n : BitVec 28), callsignField scan s = .ok (call6, n) →
      call6.toList = List.replicate (2 - d) (0x20 : Octet) ++ s ++
        List.replicate (6 - (2 - d) - s.length) (0x20 : Octet) ∧
      s[d]? = some (call6.get 2)

/-- Each of `CALL6[3]`, `CALL6[4]`, `CALL6[5]` must be a capital letter or the padding space, or the callsign is
rejected; when it passes, position 3 is a letter and no letter follows a space (R61). -/
def Obligations.CallsignTrailingClass : Prop :=
  (∀ (scan : DigitScan) (s : List Octet) (d : Nat) (i : Fin 6), digitPos scan s = some d → 3 ≤ i.val →
    isUpper ((normalize (2 - d) s).get i) = false → (normalize (2 - d) s).get i ≠ 0x20 →
    callsignField scan s = .error .invalidCallsign) ∧
  ∀ (scan : DigitScan) (s : List Octet) (call6 : Vector Octet 6) (n : BitVec 28),
    callsignField scan s = .ok (call6, n) →
      isUpper (call6.get 3) = true ∧ (isUpper (call6.get 4) = true ∨ call6.get 4 = 0x20) ∧
      (isUpper (call6.get 5) = true ∨ call6.get 5 = 0x20) ∧ (call6.get 4 = 0x20 → call6.get 5 = 0x20)

/-- What the leading positions and the codes of an accepted callsign are (R62). -/
def Obligations.CallsignLeadingPositions : Prop :=
  ∀ (scan : DigitScan) (s : List Octet) (d : Nat) (call6 : Vector Octet 6) (n : BitVec 28),
    digitPos scan s = some d → callsignField scan s = .ok (call6, n) →
      isDigit (call6.get 2) = true ∧ isAlnum (call6.get 1) = true ∧
      (scan = .firstDigit → d = 2 → isUpper (call6.get 1) = true) ∧
      (d = 1 → call6.get 0 = 0x20) ∧ (d = 2 → isAlnum (call6.get 0) = true) ∧
      code (call6.get 0) ≤ 36 ∧ code (call6.get 1) ≤ 35 ∧ code (call6.get 2) ≤ 9 ∧
      ∀ i : Fin 6, 3 ≤ i.val → 10 ≤ code (call6.get i) ∧ code (call6.get i) - 10 ≤ 26

/-- The packed callsign fits its 28 bits with no truncation, and the extremes reachable from valid callsigns are those of
R64, for both values of `DIGIT_SCAN`. -/
def Obligations.CallsignFieldRange : Prop :=
  (∀ (scan : DigitScan) (s : List Octet) (call6 : Vector Octet 6) (n : BitVec 28),
    callsignField scan s = .ok (call6, n) →
      n.toNat = callPack call6 ∧ callPack call6 ≤ 37 * 36 * 10 * 27 ^ 3 - 1 ∧ n.toNat ≤ 262176803 ∧
      (scan = .firstDigit → 1968300 ≤ n.toNat)) ∧
  (∀ scan, ∃ call6, callsignField scan [0x5A, 0x39, 0x5A, 0x5A] = .ok (call6, 262176803)) ∧
  (∃ call6, callsignField .firstDigit [0x30, 0x41, 0x30, 0x41, 0x41, 0x41] = .ok (call6, 1968300)) ∧
  ∃ call6, callsignField .index2First [0x30, 0x30, 0x30, 0x41, 0x41, 0x41] = .ok (call6, 0)

/-- The callsigns that PACK_CALLSIGN accepts are exactly those of the pattern: one or two letters or digits, a digit, one
to three letters, 4 to 6 octets in all (R57..R61). On every other callsign the operation raises InvalidCallsign; that it
then writes nothing else, `CALL6` not even where the check of R61 is the one that fails, is the model's reading (log entry
5). -/
def Obligations.CallsignAcceptedIffShaped : Prop :=
  (∀ s : State, ¬ValidCallsign .firstDigit s.txn.request.callsign →
    exec .packCallsign s = .next (s.raise .invalidCallsign)) ∧
  ∀ (scan : DigitScan) (s : List Octet),
    (∃ field, callsignField scan s = .ok field) ↔
      4 ≤ s.length ∧ ∃ front d tail, s = front ++ d :: tail ∧ (front.length = 1 ∨ front.length = 2) ∧
        front.all isAlnum = true ∧ isDigit d = true ∧ 1 ≤ tail.length ∧ tail.length ≤ 3 ∧
        tail.all isUpper = true ∧ (scan = .firstDigit → ∀ b0 b1, front = [b0, b1] → isDigit b1 = false)

/-- PACK_CALLSIGN on a valid callsign completes: `CALL6` is the right-aligned callsign, `N` its mixed-radix code, and
nothing else changes (R63). -/
def Obligations.PackCallsignCompletes : Prop :=
  ∀ (s : State) (front : List Octet) (d : Octet) (tail : List Octet),
    CallsignShape .firstDigit s.txn.request.callsign front d tail →
    ∃ (call6 : Vector Octet 6) (n : BitVec 28),
      call6.toList = List.replicate (2 - front.length) (0x20 : Octet) ++ front ++ d :: tail ++
        List.replicate (3 - tail.length) (0x20 : Octet) ∧
      (n.toNat : Int) =
        ((((code (call6.get 0) * 36 + code (call6.get 1)) * 10 + code (call6.get 2)) * 27 +
          (code (call6.get 3) - 10 : Int)) * 27 + (code (call6.get 4) - 10 : Int)) * 27 +
          (code (call6.get 5) - 10 : Int) ∧
      exec .packCallsign s = .next { s with txn := { s.txn with call6 := call6, nField := n } }

/-! ### The locator and the power -/

/-- A locator that is not exactly 4 octets makes PACK_LOCATOR raise InvalidGrid, and so does one whose octets 0 and 1 are
not both letters A..R or whose octets 2 and 3 are not both digits (R66, R67). -/
def Obligations.LocatorLengthAndClassesChecked : Prop :=
  (∀ s : State, s.txn.request.locator.length ≠ 4 → exec .packLocator s = .next (s.raise .invalidGrid)) ∧
  ∀ (s : State) (g0 g1 g2 g3 : Octet), s.txn.request.locator = [g0, g1, g2, g3] →
    (isLocLetter g0 = false ∨ isLocLetter g1 = false ∨ isDigit g2 = false ∨ isDigit g3 = false) →
    exec .packLocator s = .next (s.raise .invalidGrid)

/-- PACK_LOCATOR on a valid locator completes: `L` is the value of R68 and nothing else changes. -/
def Obligations.PackLocatorCompletes : Prop :=
  ∀ (s : State) (l0 l1 d0 d1 : Nat), l0 < 18 → l1 < 18 → d0 < 10 → d1 < 10 →
    s.txn.request.locator = [BitVec.ofNat 8 (0x41 + l0), BitVec.ofNat 8 (0x41 + l1), BitVec.ofNat 8 (0x30 + d0),
      BitVec.ofNat 8 (0x30 + d1)] →
    ∃ l : BitVec 15, (l.toNat : Int) = (179 - (10 * l0 + d0)) * 180 + (10 * l1 + d1) ∧
      exec .packLocator s = .next { s with txn := { s.txn with lField := l } }

/-- `L` is at most 32399, and every value 0..32399 is the field of exactly one locator (R69). -/
def Obligations.LocatorFieldIsABijection : Prop :=
  (∀ (g : List Octet) (l : BitVec 15), locatorField g = .ok l → l.toNat ≤ 32399) ∧
  ∀ v : Nat, v ≤ 32399 → ∃! g : List Octet, locatorField g = .ok (BitVec.ofNat 15 v)

/-- A power below 0 or above 60 makes PACK_POWER raise InvalidPower, whatever the width of the port it came from
(R71). -/
def Obligations.PowerRangeChecked : Prop :=
  (∀ s : State, (s.txn.request.power < 0 ∨ 60 < s.txn.request.power) →
    exec .packPower s = .next (s.raise .invalidPower)) ∧
  ∀ (width : Nat) (lines : BitVec width) (s : State), s.txn.request.power = lines.toInt →
    (lines.toInt < 0 ∨ 60 < lines.toInt) → exec .packPower s = .next (s.raise .invalidPower)

/-- The 19 entries of `PSTEP` are the values 0..60 whose last digit is 0, 3 or 7, in increasing order (R72). -/
def Obligations.PowerStepTableIsTheScale : Prop :=
  pstepTable.toList.map BitVec.toNat = [0, 3, 7, 10, 13, 17, 20, 23, 27, 30, 33, 37, 40, 43, 47, 50, 53, 57, 60] ∧
  pstepTable.toList.map BitVec.toNat =
    (List.range 61).filter fun v => decide (v % 10 = 0 ∨ v % 10 = 3 ∨ v % 10 = 7)

/-- PACK_POWER on a power of 0..60 completes: `P` is 64 more than the largest step not above the power, and nothing else
changes (R73, R74). -/
def Obligations.PackPowerCompletes : Prop :=
  ∀ s : State, 0 ≤ s.txn.request.power → s.txn.request.power ≤ 60 →
    ∃ (v : Nat) (q : BitVec 7), RoundsTo s.txn.request.power v ∧ q.toNat = v + 64 ∧
      exec .packPower s = .next { s with txn := { s.txn with pField := q } }

/-- `P` is 64..124 and its bit 6 is set, for every valid power (R75). -/
def Obligations.PowerFieldRange : Prop :=
  ∀ power : Int, 0 ≤ power → power ≤ 60 →
    ∃ q : BitVec 7, powerField power = .ok q ∧ 64 ≤ q.toNat ∧ q.toNat ≤ 124 ∧ q.getLsbD 6 = true

/-- The three fields do not depend on each other: each packing stage gives the same field, or the same error, for two
transactions that agree on its own text or number; and the 22 low bits of `W` are `L*128 + P` with no carry (R76). -/
def Obligations.FieldsAreIndependent : Prop :=
  (∀ s t : State, s.txn.request.callsign = t.txn.request.callsign →
    (∃ call6 n, exec .packCallsign s = .next { s with txn := { s.txn with call6 := call6, nField := n } } ∧
      exec .packCallsign t = .next { t with txn := { t.txn with call6 := call6, nField := n } }) ∨
    (∃ s' t', exec .packCallsign s = .next s' ∧ exec .packCallsign t = .next t' ∧
      s'.responses = s.responses ++ [.err .invalidCallsign] ∧ t'.responses = t.responses ++ [.err .invalidCallsign] ∧
      s'.txn.stage = .done ∧ t'.txn.stage = .done)) ∧
  (∀ s t : State, s.txn.request.power = t.txn.request.power →
    (∃ q, exec .packPower s = .next { s with txn := { s.txn with pField := q } } ∧
      exec .packPower t = .next { t with txn := { t.txn with pField := q } }) ∨
    (exec .packPower s = .next (s.raise .invalidPower) ∧ exec .packPower t = .next (t.raise .invalidPower))) ∧
  (∀ s t : State, s.txn.request.locator = t.txn.request.locator →
    (∃ l, exec .packLocator s = .next { s with txn := { s.txn with lField := l } } ∧
      exec .packLocator t = .next { t with txn := { t.txn with lField := l } }) ∨
    (exec .packLocator s = .next (s.raise .invalidGrid) ∧ exec .packLocator t = .next (t.raise .invalidGrid))) ∧
  ∀ (n : BitVec 28) (l : BitVec 15) (q : BitVec 7),
    (messageWord n l q).toNat % 2 ^ 22 = l.toNat * 128 + q.toNat ∧ (messageWord n l q).extractLsb' 7 15 = l

/-! ### The assembler -/

/-- ASSEMBLE completes in every state: `W` is the sum of the shifted fields, `U` is `W` most significant bit first and
then 31 flush zeros, and nothing else changes (R77, R78). -/
def Obligations.AssembleCompletes : Prop :=
  ∀ s : State, ∃ (w : BitVec 50) (u : BitSeq 81),
    w.toNat = s.txn.nField.toNat * 2 ^ 22 + s.txn.lField.toNat * 2 ^ 7 + s.txn.pField.toNat ∧
    (∀ i : Fin 81, i.val ≤ 49 → u.get i = w.getLsbD (49 - i.val)) ∧
    (∀ i : Fin 81, 50 ≤ i.val → u.get i = false) ∧ u.get 49 = s.txn.pField.getLsbD 0 ∧
    exec .assemble s = .next { s with txn := { s.txn with word := w, input := u } }

/-- `W` is the concatenation of the three fields and each field is its own slice of `W` (R49). -/
def Obligations.WordIsTheConcatenation : Prop :=
  ∀ (n : BitVec 28) (l : BitVec 15) (q : BitVec 7),
    messageWord n l q = n ++ l ++ q ∧ (messageWord n l q).extractLsb' 22 28 = n ∧
    (messageWord n l q).extractLsb' 7 15 = l ∧ (messageWord n l q).extractLsb' 0 7 = q ∧
    (messageWord n l q).toNat = n.toNat * 2 ^ 22 + l.toNat * 2 ^ 7 + q.toNat

/-! ### The convolutional encoder -/

/-- The generator masks in both orientations, each with 15 bits set and its end bits set (R81). -/
def Obligations.GeneratorMasks : Prop :=
  hardware.polyA = 0xF2D05351 ∧ hardware.polyB = 0xE4613C47 ∧ bitrev hardware.polyA = 0x8ACA0B4F ∧
  bitrev hardware.polyB = 0xE23C8627 ∧ popcount hardware.polyA = 15 ∧ popcount hardware.polyB = 15 ∧
  hardware.polyA.getLsbD 0 = true ∧ hardware.polyA.getLsbD 31 = true ∧ hardware.polyB.getLsbD 0 = true ∧
  hardware.polyB.getLsbD 31 = true

/-- CONV_STEP at a step index 0..80 completes: the input bit enters at the register's most significant end, the two
parities of the new register are `C[2k]` and `C[2k+1]`, and nothing else changes (R82). -/
def Obligations.ConvStepCompletes : Prop :=
  ∀ (s : State) (k : Fin 81), s.txn.k = k.castSucc →
    ∃ (sr : BitVec 32) (cw : BitSeq 162),
      sr.toNat = s.txn.sr.toNat / 2 + (if s.txn.input.get k = true then 2 ^ 31 else 0) ∧
      cw[2 * k.val]? = some (decide (popcount (sr &&& 0x8ACA0B4F) % 2 = 1)) ∧
      cw[2 * k.val + 1]? = some (decide (popcount (sr &&& 0xE23C8627) % 2 = 1)) ∧
      (∀ i : Fin 162, i.val / 2 ≠ k.val → cw.get i = s.txn.codeword.get i) ∧
      exec .convStep s = .next { s with txn := { s.txn with sr := sr, codeword := cw } }

/-- CONV_STEP with `k` = 81 stops: there is no input bit U[81] (R82 gives step indexes 0..80; log entry 7). -/
def Obligations.ConvStepStopsPastTheLastInput : Prop :=
  ∀ s : State, s.txn.k = 81 → exec .convStep s = .fault .convIndexOutOfRange

/-- The LSB-insertion form is the bit reversal of the MSB-insertion form and gives the same parities, for every mask, not
only the two of this hardware (R83). -/
def Obligations.LsbInsertionFormAgrees : Prop :=
  ∀ (sr poly : BitVec 32) (u : Bool),
    (bitrev (shiftIn sr u)).toNat = ((bitrev sr).toNat * 2 + u.toNat) % 2 ^ 32 ∧
    tapParity poly (shiftIn sr u) = parity32 (bitrev (shiftIn sr u) &&& poly)

/-- CONV_ENCODE completes in every state: the codeword is that of the closed form, at each step polynomial A's bit and then
B's, each the XOR of the inputs its mask selects; `SR` holds the last 32 inputs, `k` is 81, and nothing else changes
(R84, R86). That `k` ends at 81 is the model's reading (log entry 6). -/
def Obligations.ConvEncodeCompletes : Prop :=
  ∀ s : State, ∃ (sr : BitVec 32) (cw : BitSeq 162),
    (∀ j : Fin 81, cw[2 * j.val]? = some (outputBit 0xF2D05351 s.txn.input j.val) ∧
      cw[2 * j.val + 1]? = some (outputBit 0xE4613C47 s.txn.input j.val)) ∧
    (∀ i : Fin 32, some (sr.getLsbD i.val) = s.txn.input[49 + i.val]?) ∧
    exec .convEncode s = .next { s with txn := { s.txn with sr := sr, k := 81, codeword := cw } }

/-- The codeword is a GF(2)-linear function of the input, and a single 1 at `U[m]` gives mask bits `t` of A and of B at step
`m + t` and zeros elsewhere, for every pair of masks (R86). -/
def Obligations.CodewordIsLinear : Prop :=
  (∀ (p : Params) (t1 t2 t3 : Txn), t3.input = Vector.zipWith xor t1.input t2.input →
    (t3.convEncode p).codeword = Vector.zipWith xor (t1.convEncode p).codeword (t2.convEncode p).codeword) ∧
  ∀ (p : Params) (t : Txn) (m j : Fin 81), (∀ i : Fin 81, t.input.get i = decide (i = m)) →
    (t.convEncode p).codeword[2 * j.val]? = some (decide (m ≤ j) && p.polyA.getLsbD (j.val - m.val)) ∧
    (t.convEncode p).codeword[2 * j.val + 1]? = some (decide (m ≤ j) && p.polyB.getLsbD (j.val - m.val))

/-- Each output pair depends on the current input bit and the 31 before it and on no other, and on both ends of that span:
changing only the current bit, or only the bit 31 steps before, changes both bits of the pair (R87). -/
def Obligations.ConstraintLengthIsThirtyTwo : Prop :=
  (∀ (p : Params) (t1 t2 : Txn) (j : Fin 81),
    (∀ i : Fin 81, i.val ≤ j.val → j.val ≤ i.val + 31 → t1.input.get i = t2.input.get i) →
    (t1.convEncode p).codeword[2 * j.val]? = (t2.convEncode p).codeword[2 * j.val]? ∧
    (t1.convEncode p).codeword[2 * j.val + 1]? = (t2.convEncode p).codeword[2 * j.val + 1]?) ∧
  ∀ (t1 t2 : Txn) (j m : Fin 81), (m = j ∨ m.val + 31 = j.val) →
    (∀ i : Fin 81, (t1.input.get i = t2.input.get i) ↔ i ≠ m) →
    (t1.convEncode hardware).codeword[2 * j.val]? ≠ (t2.convEncode hardware).codeword[2 * j.val]? ∧
    (t1.convEncode hardware).codeword[2 * j.val + 1]? ≠ (t2.convEncode hardware).codeword[2 * j.val + 1]?

/-- After the last step of an assembled message the register holds `P[0]` in bit 0 and zeros above, in the LSB-insertion
form `P[0]` in bit 31 (R88). -/
def Obligations.FinalRegisterIsTheLastMessageBit : Prop :=
  ∀ (p : Params) (t : Txn),
    (t.assemble.convEncode p).sr = (BitVec.ofBool (t.pField.getLsbD 0)).setWidth 32 ∧
    bitrev (t.assemble.convEncode p).sr = (BitVec.ofBool (t.pField.getLsbD 0)).setWidth 32 <<< 31

/-! ### The interleaver and the merger -/

/-- `PERM` is what the scan of R89 builds: the bit-reversed 8-bit indexes below 162, in increasing order of the scanned
index. -/
def Obligations.PermIsTheBitReversalScan : Prop := permTable.toList = permScan

/-- `PERM` is a bijection of 0..161, with 0 its only fixed point, and no involution (R90, R93). -/
def Obligations.PermIsABijection : Prop :=
  (∀ d : Fin 162, ∃! k : Fin 162, (permTable.get k).toNat = d.val) ∧
  (∀ k : Fin 162, (permTable.get k).toNat = k.val ↔ k = 0) ∧
  (permTable.get 1).toNat = 128 ∧ (permTable.get 128).toNat = 147

/-- INTERLEAVE completes in every state: codeword bit `k` goes to position `PERM[k]`, whatever the buffer held, and nothing
else changes (R90). -/
def Obligations.InterleaveCompletes : Prop :=
  ∀ s : State, ∃ w : BitSeq 162,
    (∀ k : Fin 162, w[(permTable.get k).toNat]? = some (s.txn.codeword.get k)) ∧
    exec .interleave s = .next { s with txn := { s.txn with interleaved := w } }

/-- `IPERM` undoes `PERM`, and the gather form with it gives the same interleaved word (R92). -/
def Obligations.GatherFormAgrees : Prop :=
  (∀ k : Fin 162, ipermTable[(permTable.get k).toNat]? = some (BitVec.ofNat 8 k.val)) ∧
  ∀ (cw buf : BitSeq 162) (d : Fin 162), some ((scatter cw buf).get d) = cw[(ipermTable.get d).toNat]?

/-- The sync vector of this hardware: the table of R94 read row by row as one binary number, entry 0 its most significant
digit, with 63 ones and 99 zeros (R94). -/
def Obligations.SyncVectorTable : Prop :=
  hardware.sync.toList.foldl (fun acc b => 2 * acc + b.toNat) 0 =
    0b110000001000111000100101111000000010010100000010110011010001101000011010101010010010110001101010001000001001001110110011010001110000010100110000000110101100011000 ∧
  hardware.sync.toList.count true = 63 ∧ hardware.sync.toList.count false = 99

/-- MERGE_SYNC completes in every state: each symbol is twice the data bit plus the sync bit, so its high bit gives back the
data bit and its low bit the sync bit, and nothing else changes (R95, R97). -/
def Obligations.MergeSyncCompletes : Prop :=
  ∀ s : State, ∃ symbols : Vector Symbol 162,
    (∀ i : Fin 162,
      (symbols.get i).val = 2 * (s.txn.interleaved.get i).toNat + (hardware.sync.get i).toNat ∧
      (symbols.get i).val / 2 = (s.txn.interleaved.get i).toNat ∧
      (symbols.get i).val % 2 = (hardware.sync.get i).toNat) ∧
    exec .mergeSync s = .next { s with txn := { s.txn with symbols := symbols } }

/-! ### The whole transaction -/

/-- ENCODE completes for every request in every state, in one step, with exactly one response, in the priority of R99: the
first failing field's error, callsign before locator before power, and symbols only if none fails (R99, R100). That
the sequencer's own field and the storage go back to those of an idle block is the model's choice (log entries 1, 4 and 8). -/
def Obligations.EncodeReportsTheFirstError : Prop :=
  ∀ (s : State) (r : Request), ∃ response,
    exec (.encode r) s =
      .next { s with responses := s.responses ++ [response], op := 0, txn := Txn.idle } ∧
    (¬ValidCallsign .firstDigit r.callsign → response = .err .invalidCallsign) ∧
    (ValidCallsign .firstDigit r.callsign → ¬ValidLocator r.locator → response = .err .invalidGrid) ∧
    (ValidCallsign .firstDigit r.callsign → ValidLocator r.locator → ¬ValidPower r.power →
      response = .err .invalidPower) ∧
    (ValidRequest r → ∃ symbols, response = .ok symbols)

/-- ENCODE answers a valid request with the symbols that the rules of the stages, read as a relation, give it, and with no
others: they exist, they are unique, and every `ok` response is of that kind (R98). That the sequencer's own field and the
storage go back to those of an idle block is the model's choice (log entries 1, 4 and 8). -/
def Obligations.EncodeMeetsTheStageRules : Prop :=
  (∀ r : Request, ValidRequest r → ∃! symbols, Encodes hardware r symbols) ∧
  ∀ (s : State) (r : Request) (symbols : Vector Symbol 162), Encodes hardware r symbols ↔
    exec (.encode r) s =
      .next { s with responses := s.responses ++ [.ok symbols], op := 0, txn := Txn.idle }

/-- ENCODE is a function of its request alone: the response does not depend on the state it is issued in, so equal
requests get equal responses (R102). Nor does it depend on what the transaction's storage holds at its start: every
element is written before it is read (R28), so the values that log entry 4 names cannot be seen. -/
def Obligations.EncodeDependsOnTheRequestAlone : Prop :=
  (∀ r : Request, ∃ response, ∀ s : State, ∃ t, exec (.encode r) s = .next t ∧
    t.responses = s.responses ++ [response]) ∧
  ∀ t u : Txn, t.request = u.request →
    (t.pack hardware).map (fun x => (x.transmit hardware).symbols) =
      (u.pack hardware).map (fun x => (x.transmit hardware).symbols)

/-- No message is lost: two requests answered with the same symbols have the same callsign, the same locator and
powers that round to the same step. -/
def Obligations.EqualSymbolsMeanEqualMessages : Prop :=
  ∀ (r1 r2 : Request) (symbols : Vector Symbol 162),
    encodeRequest hardware r1 = .ok symbols → encodeRequest hardware r2 = .ok symbols →
      r1.callsign = r2.callsign ∧ r1.locator = r2.locator ∧
      ∃ v, RoundsTo r1.power v ∧ RoundsTo r2.power v

/-- The two forms of R22 agree: an idle block in the small-step form, with a request waiting, comes after at most 90 steps to
the state that the atomic form reaches in one, with the same response (R22, R104). The bound counts the model's own steps
that take the request and that discard the storage, and the idle state is the model's (log entries 1, 4 and 8). -/
def Obligations.StagedFormGivesTheAtomicResult : Prop :=
  ∀ (s : State) (r : Request) (rest : List Request), s.Idle → s.stepping = .staged → s.requests = r :: rest →
    ∃ n t, n ≤ 90 ∧ Sys2Proof.core.run n s = .next t ∧ t.stepping = .staged ∧
      step { s with stepping := .atomic } = .next { t with stepping := .atomic } ∧
      t.responses = s.responses ++ [encodeRequest hardware r]

/-! ### Invariants of every step -/

/-- HEADLINE. Every step keeps the sequencer's invariant: at each stage the storage holds what the rules of the earlier
stages give for the request, and a finished transaction has delivered the response of R98 (R28, R104). -/
def Obligations.StepKeepsCoherence : Prop :=
  ∀ s t : State, s.Coherent → step s = .next t → t.Coherent

/-- The state after reset meets both invariants: the sequencer's, with whatever requests the host has issued, and that of the
sync bits, no response having been delivered yet. -/
def Obligations.ResetMeetsTheInvariants : Prop :=
  State.reset.SyncCarried ∧ ∀ requests, State.Coherent { State.reset with requests := requests }

/-- HEADLINE. Every step keeps this: the low bit of every delivered symbol is the sync bit of its index (R95, R97). -/
def Obligations.StepKeepsSyncCarried : Prop :=
  ∀ s t : State, s.SyncCarried → step s = .next t → t.SyncCarried

/-- Each request is answered exactly once: no step of a coherent block changes the number of requests waiting, in progress
and answered taken together, and requests are taken oldest first and responses only added at the end (R19). -/
def Obligations.EachRequestIsAnsweredOnce : Prop :=
  ∀ s t : State, s.Coherent → step s = .next t →
    t.requests.length + t.unanswered + t.responses.length =
      s.requests.length + s.unanswered + s.responses.length ∧
    (t.requests = s.requests ∨ ∃ r, s.requests = r :: t.requests) ∧
    (t.responses = s.responses ∨ ∃ response, t.responses = s.responses ++ [response])

/-- A request issued while the block has something to do disturbs nothing: the step is the same with the request behind it,
and the request is then still the last one waiting (R115, R120). -/
def Obligations.IssuingDisturbsNoStep : Prop :=
  ∀ (s t : State) (r : Request), (s.txn.stage = .done ∨ s.op ≠ 0 ∨ s.requests ≠ []) → step s = .next t →
    step (s.issue r) = .next (t.issue r)

/-- A transaction in progress comes to its end: each step of a coherent block that is not idle answers a next state, which
is idle or has fewer steps left (R103). The bound 90 counts the model's own steps that take the request and that discard the
storage, and what an idle block holds is the model's choice (log entries 1 and 4). -/
def Obligations.TransactionsEnd : Prop :=
  ∀ s : State, s.Coherent → ¬s.Idle →
    ∃ t, step s = .next t ∧ (t.Idle ∨ t.stepsLeft < s.stepsLeft) ∧ s.stepsLeft ≤ 90

/-! ### Frames -/

/-- PACK_CALLSIGN, PACK_LOCATOR and PACK_POWER: on success only the stage's own fields change; on a raise only the response
is added and `STAGE` becomes DONE (R13, R27). That PACK_CALLSIGN then leaves `CALL6` as it was, where R56's pseudocode stores it
before the check of R61, is the model's reading (log entry 5). -/
def Obligations.PackingStagesFrame : Prop :=
  ∀ (s t : State) (i : Instr), (i = .packCallsign ∨ i = .packLocator ∨ i = .packPower) → exec i s = .next t →
    t.requests = s.requests ∧ t.stepping = s.stepping ∧ t.op = s.op ∧ t.txn.request = s.txn.request ∧
    t.txn.word = s.txn.word ∧ t.txn.input = s.txn.input ∧ t.txn.sr = s.txn.sr ∧ t.txn.k = s.txn.k ∧
    t.txn.codeword = s.txn.codeword ∧ t.txn.interleaved = s.txn.interleaved ∧ t.txn.symbols = s.txn.symbols ∧
    (i ≠ .packCallsign → t.txn.call6 = s.txn.call6 ∧ t.txn.nField = s.txn.nField) ∧
    (i ≠ .packLocator → t.txn.lField = s.txn.lField) ∧ (i ≠ .packPower → t.txn.pField = s.txn.pField) ∧
    ((t.responses = s.responses ∧ t.txn.stage = s.txn.stage) ∨
      (∃ e, t.responses = s.responses ++ [.err e] ∧ t.txn = { s.txn with stage := .done }))

/-- ASSEMBLE, CONV_STEP, CONV_ENCODE, INTERLEAVE and MERGE_SYNC change only the storage they write; they touch no request,
no response and no packed field (R27). -/
def Obligations.LaterStagesFrame : Prop :=
  ∀ (s t : State) (i : Instr),
    (i = .assemble ∨ i = .convStep ∨ i = .convEncode ∨ i = .interleave ∨ i = .mergeSync) → exec i s = .next t →
    t.requests = s.requests ∧ t.responses = s.responses ∧ t.stepping = s.stepping ∧ t.op = s.op ∧
    t.txn.request = s.txn.request ∧ t.txn.stage = s.txn.stage ∧ t.txn.call6 = s.txn.call6 ∧
    t.txn.nField = s.txn.nField ∧ t.txn.lField = s.txn.lField ∧ t.txn.pField = s.txn.pField ∧
    (i ≠ .assemble → t.txn.word = s.txn.word ∧ t.txn.input = s.txn.input) ∧
    (i ≠ .convStep → i ≠ .convEncode → t.txn.sr = s.txn.sr ∧ t.txn.codeword = s.txn.codeword) ∧
    (i ≠ .convEncode → t.txn.k = s.txn.k) ∧
    (i ≠ .interleave → t.txn.interleaved = s.txn.interleaved) ∧
    (i ≠ .mergeSync → t.txn.symbols = s.txn.symbols)

/-- ENCODE takes no request from the queue itself, keeps the form of the sequencer and every earlier response, adds exactly
one, and leaves no transaction storage behind: nothing carries over to the next transaction (R20, R27, R100). -/
def Obligations.EncodeFrame : Prop :=
  ∀ (s t : State) (r : Request), exec (.encode r) s = .next t →
    t.requests = s.requests ∧ t.stepping = s.stepping ∧ t.txn = Txn.idle ∧ t.op = 0 ∧
    t.responses.take s.responses.length = s.responses ∧ t.responses.length = s.responses.length + 1
end

