-- ==== Sys2Proof/Laws/State.lean ====
section
/-! SUPPORT. One lemma for each field and each named update, so that no later proof unfolds a record update. -/

namespace Sys2Proof.Machine

variable (s : State) (t : Txn)

/-! ### The storage of a transaction -/

@[simp] theorem Txn.idle_request : Txn.idle.request = Request.zero := rfl
@[simp] theorem Txn.idle_stage : Txn.idle.stage = .pack := rfl
@[simp] theorem Txn.idle_sr : Txn.idle.sr = 0 := rfl
@[simp] theorem Txn.idle_k : Txn.idle.k = 0 := rfl
@[simp] theorem Txn.start_request (r : Request) : (Txn.start r).request = r := rfl
@[simp] theorem Txn.start_stage (r : Request) : (Txn.start r).stage = .pack := rfl
@[simp] theorem Txn.start_call6 (r : Request) : (Txn.start r).call6 = Txn.idle.call6 := rfl
@[simp] theorem Txn.start_nField (r : Request) : (Txn.start r).nField = Txn.idle.nField := rfl
@[simp] theorem Txn.start_lField (r : Request) : (Txn.start r).lField = Txn.idle.lField := rfl
@[simp] theorem Txn.start_pField (r : Request) : (Txn.start r).pField = Txn.idle.pField := rfl
@[simp] theorem Txn.start_word (r : Request) : (Txn.start r).word = Txn.idle.word := rfl
@[simp] theorem Txn.start_input (r : Request) : (Txn.start r).input = Txn.idle.input := rfl
@[simp] theorem Txn.start_sr (r : Request) : (Txn.start r).sr = 0 := rfl
@[simp] theorem Txn.start_k (r : Request) : (Txn.start r).k = 0 := rfl
@[simp] theorem Txn.start_codeword (r : Request) : (Txn.start r).codeword = Txn.idle.codeword := rfl
@[simp] theorem Txn.start_interleaved (r : Request) : (Txn.start r).interleaved = Txn.idle.interleaved := rfl
@[simp] theorem Txn.start_symbols (r : Request) : (Txn.start r).symbols = Txn.idle.symbols := rfl

@[simp] theorem Txn.assemble_request : t.assemble.request = t.request := rfl
@[simp] theorem Txn.assemble_stage : t.assemble.stage = t.stage := rfl
@[simp] theorem Txn.assemble_call6 : t.assemble.call6 = t.call6 := rfl
@[simp] theorem Txn.assemble_nField : t.assemble.nField = t.nField := rfl
@[simp] theorem Txn.assemble_lField : t.assemble.lField = t.lField := rfl
@[simp] theorem Txn.assemble_pField : t.assemble.pField = t.pField := rfl
@[simp] theorem Txn.assemble_word : t.assemble.word = messageWord t.nField t.lField t.pField := rfl
@[simp] theorem Txn.assemble_input : t.assemble.input = encoderInput (messageWord t.nField t.lField t.pField) := rfl
@[simp] theorem Txn.assemble_sr : t.assemble.sr = t.sr := rfl
@[simp] theorem Txn.assemble_k : t.assemble.k = t.k := rfl
@[simp] theorem Txn.assemble_codeword : t.assemble.codeword = t.codeword := rfl
@[simp] theorem Txn.assemble_interleaved : t.assemble.interleaved = t.interleaved := rfl
@[simp] theorem Txn.assemble_symbols : t.assemble.symbols = t.symbols := rfl

@[simp] theorem Txn.convStep_request (p : Params) (k : Fin 81) : (t.convStep p k).request = t.request := rfl
@[simp] theorem Txn.convStep_stage (p : Params) (k : Fin 81) : (t.convStep p k).stage = t.stage := rfl
@[simp] theorem Txn.convStep_call6 (p : Params) (k : Fin 81) : (t.convStep p k).call6 = t.call6 := rfl
@[simp] theorem Txn.convStep_nField (p : Params) (k : Fin 81) : (t.convStep p k).nField = t.nField := rfl
@[simp] theorem Txn.convStep_lField (p : Params) (k : Fin 81) : (t.convStep p k).lField = t.lField := rfl
@[simp] theorem Txn.convStep_pField (p : Params) (k : Fin 81) : (t.convStep p k).pField = t.pField := rfl
@[simp] theorem Txn.convStep_word (p : Params) (k : Fin 81) : (t.convStep p k).word = t.word := rfl
@[simp] theorem Txn.convStep_input (p : Params) (k : Fin 81) : (t.convStep p k).input = t.input := rfl
@[simp] theorem Txn.convStep_sr (p : Params) (k : Fin 81) : (t.convStep p k).sr = shiftIn t.sr (t.input.get k) := rfl
@[simp] theorem Txn.convStep_k (p : Params) (k : Fin 81) : (t.convStep p k).k = t.k := rfl
@[simp] theorem Txn.convStep_interleaved (p : Params) (k : Fin 81) : (t.convStep p k).interleaved = t.interleaved := rfl
@[simp] theorem Txn.convStep_symbols (p : Params) (k : Fin 81) : (t.convStep p k).symbols = t.symbols := rfl

@[simp] theorem Txn.convTurn_request (p : Params) (k : Fin 81) : (t.convTurn p k).request = t.request := rfl
@[simp] theorem Txn.convTurn_stage (p : Params) (k : Fin 81) : (t.convTurn p k).stage = t.stage := rfl
@[simp] theorem Txn.convTurn_call6 (p : Params) (k : Fin 81) : (t.convTurn p k).call6 = t.call6 := rfl
@[simp] theorem Txn.convTurn_nField (p : Params) (k : Fin 81) : (t.convTurn p k).nField = t.nField := rfl
@[simp] theorem Txn.convTurn_lField (p : Params) (k : Fin 81) : (t.convTurn p k).lField = t.lField := rfl
@[simp] theorem Txn.convTurn_pField (p : Params) (k : Fin 81) : (t.convTurn p k).pField = t.pField := rfl
@[simp] theorem Txn.convTurn_word (p : Params) (k : Fin 81) : (t.convTurn p k).word = t.word := rfl
@[simp] theorem Txn.convTurn_input (p : Params) (k : Fin 81) : (t.convTurn p k).input = t.input := rfl
@[simp] theorem Txn.convTurn_sr (p : Params) (k : Fin 81) : (t.convTurn p k).sr = shiftIn t.sr (t.input.get k) := rfl
@[simp] theorem Txn.convTurn_k (p : Params) (k : Fin 81) : (t.convTurn p k).k = k.succ := rfl
@[simp] theorem Txn.convTurn_codeword (p : Params) (k : Fin 81) : (t.convTurn p k).codeword = (t.convStep p k).codeword := rfl
@[simp] theorem Txn.convTurn_interleaved (p : Params) (k : Fin 81) : (t.convTurn p k).interleaved = t.interleaved := rfl
@[simp] theorem Txn.convTurn_symbols (p : Params) (k : Fin 81) : (t.convTurn p k).symbols = t.symbols := rfl

@[simp] theorem Txn.interleave_request : t.interleave.request = t.request := rfl
@[simp] theorem Txn.interleave_stage : t.interleave.stage = t.stage := rfl
@[simp] theorem Txn.interleave_call6 : t.interleave.call6 = t.call6 := rfl
@[simp] theorem Txn.interleave_nField : t.interleave.nField = t.nField := rfl
@[simp] theorem Txn.interleave_lField : t.interleave.lField = t.lField := rfl
@[simp] theorem Txn.interleave_pField : t.interleave.pField = t.pField := rfl
@[simp] theorem Txn.interleave_word : t.interleave.word = t.word := rfl
@[simp] theorem Txn.interleave_input : t.interleave.input = t.input := rfl
@[simp] theorem Txn.interleave_sr : t.interleave.sr = t.sr := rfl
@[simp] theorem Txn.interleave_k : t.interleave.k = t.k := rfl
@[simp] theorem Txn.interleave_codeword : t.interleave.codeword = t.codeword := rfl
@[simp] theorem Txn.interleave_interleaved : t.interleave.interleaved = scatter t.codeword t.interleaved := rfl
@[simp] theorem Txn.interleave_symbols : t.interleave.symbols = t.symbols := rfl

@[simp] theorem Txn.mergeSync_request (p : Params) : (t.mergeSync p).request = t.request := rfl
@[simp] theorem Txn.mergeSync_stage (p : Params) : (t.mergeSync p).stage = t.stage := rfl
@[simp] theorem Txn.mergeSync_call6 (p : Params) : (t.mergeSync p).call6 = t.call6 := rfl
@[simp] theorem Txn.mergeSync_nField (p : Params) : (t.mergeSync p).nField = t.nField := rfl
@[simp] theorem Txn.mergeSync_lField (p : Params) : (t.mergeSync p).lField = t.lField := rfl
@[simp] theorem Txn.mergeSync_pField (p : Params) : (t.mergeSync p).pField = t.pField := rfl
@[simp] theorem Txn.mergeSync_word (p : Params) : (t.mergeSync p).word = t.word := rfl
@[simp] theorem Txn.mergeSync_input (p : Params) : (t.mergeSync p).input = t.input := rfl
@[simp] theorem Txn.mergeSync_sr (p : Params) : (t.mergeSync p).sr = t.sr := rfl
@[simp] theorem Txn.mergeSync_k (p : Params) : (t.mergeSync p).k = t.k := rfl
@[simp] theorem Txn.mergeSync_codeword (p : Params) : (t.mergeSync p).codeword = t.codeword := rfl
@[simp] theorem Txn.mergeSync_interleaved (p : Params) : (t.mergeSync p).interleaved = t.interleaved := rfl
@[simp] theorem Txn.mergeSync_symbols (p : Params) : (t.mergeSync p).symbols = Vector.zipWith symbolOf t.interleaved p.sync := rfl

/-! ### The state -/

@[simp] theorem State.begin_requests (r : Request) : (s.begin r).requests = s.requests := rfl
@[simp] theorem State.begin_responses (r : Request) : (s.begin r).responses = s.responses := rfl
@[simp] theorem State.begin_stepping (r : Request) : (s.begin r).stepping = s.stepping := rfl
@[simp] theorem State.begin_op (r : Request) : (s.begin r).op = 1 := rfl
@[simp] theorem State.begin_txn (r : Request) : (s.begin r).txn = Txn.start r := rfl

@[simp] theorem State.respond_requests (r : Response) : (s.respond r).requests = s.requests := rfl
@[simp] theorem State.respond_responses (r : Response) : (s.respond r).responses = s.responses ++ [r] := rfl
@[simp] theorem State.respond_stepping (r : Response) : (s.respond r).stepping = s.stepping := rfl
@[simp] theorem State.respond_op (r : Response) : (s.respond r).op = s.op := rfl
@[simp] theorem State.respond_txn (r : Response) : (s.respond r).txn = { s.txn with stage := .done } := rfl

@[simp] theorem State.raise_requests (e : ErrorKind) : (s.raise e).requests = s.requests := rfl
@[simp] theorem State.raise_responses (e : ErrorKind) : (s.raise e).responses = s.responses ++ [.err e] := rfl
@[simp] theorem State.raise_stepping (e : ErrorKind) : (s.raise e).stepping = s.stepping := rfl
@[simp] theorem State.raise_op (e : ErrorKind) : (s.raise e).op = s.op := rfl
@[simp] theorem State.raise_txn (e : ErrorKind) : (s.raise e).txn = { s.txn with stage := .done } := rfl

@[simp] theorem State.discard_requests : s.discard.requests = s.requests := rfl
@[simp] theorem State.discard_responses : s.discard.responses = s.responses := rfl
@[simp] theorem State.discard_stepping : s.discard.stepping = s.stepping := rfl
@[simp] theorem State.discard_op : s.discard.op = 0 := rfl
@[simp] theorem State.discard_txn : s.discard.txn = Txn.idle := rfl

@[simp] theorem State.issue_requests (r : Request) : (s.issue r).requests = s.requests ++ [r] := rfl
@[simp] theorem State.issue_responses (r : Request) : (s.issue r).responses = s.responses := rfl
@[simp] theorem State.issue_stepping (r : Request) : (s.issue r).stepping = s.stepping := rfl
@[simp] theorem State.issue_op (r : Request) : (s.issue r).op = s.op := rfl
@[simp] theorem State.issue_txn (r : Request) : (s.issue r).txn = s.txn := rfl

@[simp] theorem State.enter_requests (stage : Stage) (i : Instr) : (s.enter stage i).requests = s.requests := rfl
@[simp] theorem State.enter_responses (stage : Stage) (i : Instr) : (s.enter stage i).responses = s.responses := rfl
@[simp] theorem State.enter_stepping (stage : Stage) (i : Instr) : (s.enter stage i).stepping = s.stepping := rfl
@[simp] theorem State.enter_op (stage : Stage) (i : Instr) : (s.enter stage i).op = i.opId := rfl
@[simp] theorem State.enter_txn (stage : Stage) (i : Instr) : (s.enter stage i).txn = { s.txn with stage := stage } := rfl

@[simp] theorem State.commit_ok (t : Txn) : s.commit (.ok t) = { s with txn := t } := rfl
@[simp] theorem State.commit_error (e : ErrorKind) : s.commit (.error e) = s.raise e := rfl

/-! ### Reset -/

@[simp] theorem State.reset_requests : State.reset.requests = [] := rfl
@[simp] theorem State.reset_responses : State.reset.responses = [] := rfl
@[simp] theorem State.reset_stepping : State.reset.stepping = .atomic := rfl
@[simp] theorem State.reset_op : State.reset.op = 0 := rfl
@[simp] theorem State.reset_txn : State.reset.txn = Txn.idle := rfl

end Sys2Proof.Machine
end

