-- ==== Sys2Proof/Laws/Convolutional.lean ====
section
/-! SUPPORT. The convolutional encoder: what the register holds after each step, and the parities it gives. -/

namespace Sys2Proof.Machine

/-! ### Parity -/

theorem xorAll_foldl (bits : List Bool) (a : Bool) :
    bits.foldl (fun acc b => acc ^^ b) a = (a ^^ xorAll bits) := by
  induction bits generalizing a with
  | nil => simp [xorAll]
  | cons b bits ih =>
    rw [xorAll, List.foldl_cons, List.foldl_cons, ih, ih (false ^^ b)]
    simp

@[simp] theorem xorAll_nil : xorAll [] = false := rfl

@[simp] theorem xorAll_cons (b : Bool) (bits : List Bool) : xorAll (b :: bits) = (b ^^ xorAll bits) := by
  rw [xorAll, List.foldl_cons, xorAll_foldl]
  simp

@[simp] theorem xorAll_append (xs ys : List Bool) : xorAll (xs ++ ys) = (xorAll xs ^^ xorAll ys) := by
  induction xs with
  | nil => simp
  | cons x xs ih => simp [ih]

@[simp] theorem xorAll_reverse (bits : List Bool) : xorAll bits.reverse = xorAll bits := by
  induction bits with
  | nil => rfl
  | cons b bits ih => simp [ih, Bool.xor_comm]

/-- The parity of a list is that of the number of its set bits (R12). -/
theorem xorAll_eq_count (bits : List Bool) : xorAll bits = decide (bits.countP id % 2 = 1) := by
  induction bits with
  | nil => rfl
  | cons b bits ih =>
    cases b
    · simp [ih]
    · have h : ∀ n : Nat, (!decide (n % 2 = 1)) = decide ((n + 1) % 2 = 1) := by
        intro n
        rcases Nat.mod_two_eq_zero_or_one n with h | h <;> simp [h, Nat.add_mod]
      simp [ih, h]

/-- `parity32` is 1 when an odd number of bits are set (R12). -/
theorem parity32_eq_popcount (v : BitVec 32) : parity32 v = decide (popcount v % 2 = 1) :=
  xorAll_eq_count _

/-- A mask's parity, read from the register's most significant end (R81, R82). -/
theorem tapParity_eq (poly sr : BitVec 32) :
    tapParity poly sr = xorAll ((List.range 32).map fun t => poly.getLsbD t && sr.getLsbD (31 - t)) := by
  have h : (List.range 32).map (sr &&& bitrev poly).getLsbD =
      ((List.range 32).map fun t => poly.getLsbD t && sr.getLsbD (31 - t)).reverse := by
    refine List.ext_getElem (by simp) fun i h1 _ => ?_
    have hi : i < 32 := by simpa using h1
    simp only [List.getElem_map, List.getElem_range, List.getElem_reverse, List.length_map, List.length_range, bitrev,
      BitVec.getLsbD_and, BitVec.getLsbD_reverse, BitVec.getMsbD_eq_getLsbD, hi, decide_true, Bool.true_and,
      show 32 - 1 - i = 31 - i by omega, show 31 - (31 - i) = i by omega]
    exact Bool.and_comm _ _
  rw [tapParity, parity32, bitsOf, h, xorAll_reverse]

/-! ### The register -/

/-- Where each bit of the shifted register comes from (R82). -/
theorem shiftIn_getLsbD (sr : BitVec 32) (u : Bool) (i : Nat) (h : i < 32) :
    (shiftIn sr u).getLsbD (31 - i) = if i = 0 then u else sr.getLsbD (31 - (i - 1)) := by
  rcases Nat.eq_zero_or_pos i with rfl | hi
  · simp [shiftIn]
  · have h31 : 31 - i < 31 := by omega
    simp [shiftIn, h31, show i ≠ 0 by omega, show 1 + (31 - i) = 31 - (i - 1) by omega, Nat.add_comm]

/-! ### One turn -/

/-- The pair that CONV_STEP writes, and what it leaves of the codeword (R82). -/
theorem Txn.convStep_codeword_get (p : Params) (k : Fin 81) (t : Txn) (i : Fin 162) :
    (t.convStep p k).codeword.get i =
      if i.val / 2 = k.val then
        tapParity (if i.val % 2 = 0 then p.polyA else p.polyB) (shiftIn t.sr (t.input.get k))
      else t.codeword.get i := by
  have hi := i.isLt
  simp only [Txn.convStep, Vector.get_eq_getElem, Vector.getElem_set]
  split_ifs <;> first | rfl | omega

/-- A CONV_STEP whose register holds the last inputs gives the closed form's pair and a register that holds the inputs up
to its own. -/
theorem Txn.PartlyEncoded.convTurn {p : Params} {t : Txn} {k : Fin 81} (h : t.PartlyEncoded p)
    (hk : t.k.val = k.val) : (t.convTurn p k).PartlyEncoded p := by
  have hreg : ∀ i, i < 32 → (shiftIn t.sr (t.input.get k)).getLsbD (31 - i) = inputBefore t.input k.val i := by
    intro i hi
    have hk' := k.isLt
    rw [shiftIn_getLsbD _ _ _ hi]
    split
    · next h0 => subst h0; simp [inputBefore, Vector.get_eq_getElem]
    · rw [h.1 (i - 1) (by omega), hk, inputBefore]
      by_cases hik : i ≤ k.val
      · simp [hik, show i - 1 < k.val by omega, show k.val - 1 - (i - 1) = k.val - i by omega]
      · simp [hik, show ¬(i - 1 < k.val) by omega]
  have hpar : ∀ poly : BitVec 32,
      tapParity poly (shiftIn t.sr (t.input.get k)) = outputBit poly t.input k.val := by
    intro poly
    rw [tapParity_eq, outputBit]
    congr 1
    refine List.map_congr_left fun i hi => ?_
    rw [hreg i (List.mem_range.mp hi)]
  refine ⟨fun i hi => ?_, fun i hi => ?_⟩
  · have := hreg i hi
    simp only [Txn.convTurn_sr, Txn.convTurn_k, Txn.convTurn_input, Fin.val_succ, this, inputBefore,
      show k.val + 1 - 1 - i = k.val - i by omega, Nat.lt_succ_iff]
  · simp only [Txn.convTurn_k, Fin.val_succ] at hi
    simp only [Txn.convTurn_codeword, Txn.convTurn_input, Txn.convStep_codeword_get]
    split
    · next heq =>
      rw [hpar]
      simp [codewordOf, Vector.get_eq_getElem, heq]
    · exact h.2 i (by omega)

/-- Any number of turns change only `SR`, `k` and the codeword. -/
theorem Txn.convTurns_keep (p : Params) (ks : List (Fin 81)) (t : Txn) :
    ks.foldl (Txn.convTurn p) t =
      { t with
        sr := (ks.foldl (Txn.convTurn p) t).sr
        k := (ks.foldl (Txn.convTurn p) t).k
        codeword := (ks.foldl (Txn.convTurn p) t).codeword } := by
  induction ks generalizing t with
  | nil => rfl
  | cons k ks ih => rw [List.foldl_cons, ih]; rfl

/-- What the first `m` turns of CONV_ENCODE's loop leave, from a cleared register (R84, R121). -/
theorem Txn.convTurns_partlyEncoded (p : Params) (t : Txn) (hsr : t.sr = 0) (hk : t.k = 0) (m : Nat) (hm : m ≤ 81) :
    (((List.finRange 81).take m).foldl (Txn.convTurn p) t).PartlyEncoded p ∧
      (((List.finRange 81).take m).foldl (Txn.convTurn p) t).k.val = m := by
  induction m with
  | zero =>
    refine ⟨⟨fun i _ => ?_, fun i hi => ?_⟩, ?_⟩
    · simp [hsr, hk]
    · simp [hk] at hi
    · simp [hk]
  | succ m ih =>
    obtain ⟨hp, hkm⟩ := ih (by omega)
    have hlt : m < (List.finRange 81).length := by simp; omega
    rw [List.take_add_one, List.getElem?_eq_getElem hlt, Option.toList_some, List.foldl_append, List.foldl_cons,
      List.foldl_nil]
    have hval : ((List.finRange 81)[m]).val = m := by simp
    exact ⟨hp.convTurn (by rw [hkm, hval]), by simp⟩

/-- All 81 turns: the register holds the last 32 inputs and the codeword is the closed form's (R84, R86). -/
theorem Txn.convEncode_partlyEncoded (p : Params) (t : Txn) :
    (t.convEncode p).PartlyEncoded p ∧ (t.convEncode p).k = 81 := by
  have h := Txn.convTurns_partlyEncoded p { t with sr := 0, k := 0 } rfl rfl 81 (by omega)
  rw [List.take_of_length_le (by simp)] at h
  exact ⟨h.1, Fin.ext h.2⟩

/-- CONV_ENCODE reads `U` and writes `SR`, `k` and `C`, and nothing else (R84). -/
theorem Txn.convEncode_eq (p : Params) (t : Txn) :
    t.convEncode p = { t with sr := (t.convEncode p).sr, k := 81, codeword := codewordOf p t.input } := by
  have hkeep := Txn.convTurns_keep p (List.finRange 81) { t with sr := 0, k := 0 }
  obtain ⟨hp, hk⟩ := t.convEncode_partlyEncoded p
  have hin : (t.convEncode p).input = t.input := by
    have h := congrArg Txn.input hkeep
    exact h
  have hcw : (t.convEncode p).codeword = codewordOf p t.input := by
    ext i hi
    have h := hp.2 ⟨i, hi⟩ (by rw [hk]; simp; omega)
    rw [hin] at h
    exact h
  rw [← hcw, ← hk]
  exact hkeep

@[simp] theorem Txn.convEncode_codeword (p : Params) (t : Txn) :
    (t.convEncode p).codeword = codewordOf p t.input := by rw [Txn.convEncode_eq]

@[simp] theorem Txn.convEncode_k (p : Params) (t : Txn) : (t.convEncode p).k = 81 := by rw [Txn.convEncode_eq]

@[simp] theorem Txn.convEncode_input (p : Params) (t : Txn) : (t.convEncode p).input = t.input := by
  rw [Txn.convEncode_eq]

@[simp] theorem Txn.convEncode_request (p : Params) (t : Txn) : (t.convEncode p).request = t.request := by
  rw [Txn.convEncode_eq]

@[simp] theorem Txn.convEncode_interleaved (p : Params) (t : Txn) : (t.convEncode p).interleaved = t.interleaved := by
  rw [Txn.convEncode_eq]

end Sys2Proof.Machine
end

