-- ==== Sys2Proof/Laws/Interleaver.lean ====
section
/-! SUPPORT. The loop of scattered writes that INTERLEAVE is made of. -/

namespace Sys2Proof.Machine

/-- A run of scattered writes `buf[d] <- b`. -/
def writeAll {n : Nat} (writes : List (BitVec 8 × Bool)) (buf : BitSeq n) : BitSeq n :=
  writes.foldl (fun acc e => acc.setIfInBounds e.1.toNat e.2) buf

/-- INTERLEAVE writes each codeword bit at its entry of `PERM` (R90). -/
theorem scatter_eq_writeAll (c buf : BitSeq 162) :
    scatter c buf = writeAll (permTable.toList.zip c.toList) buf := rfl

/-- A position that no write names keeps its bit. -/
theorem writeAll_getElem?_of_not_mem {n : Nat} (writes : List (BitVec 8 × Bool)) (buf : BitSeq n) (d : Nat)
    (h : ∀ e ∈ writes, e.1.toNat ≠ d) : (writeAll writes buf)[d]? = buf[d]? := by
  induction writes generalizing buf with
  | nil => rfl
  | cons e writes ih =>
    rw [writeAll, List.foldl_cons]
    refine (ih (buf.setIfInBounds e.1.toNat e.2) fun e' he' => h e' (List.mem_cons_of_mem _ he')).trans ?_
    simp [h e List.mem_cons_self]

/-- Where the written positions are distinct, each holds the bit written to it. -/
theorem writeAll_getElem? {n : Nat} (writes : List (BitVec 8 × Bool)) (buf : BitSeq n)
    (hd : (writes.map fun e => e.1.toNat).Nodup) (e : BitVec 8 × Bool) (he : e ∈ writes) (hn : e.1.toNat < n) :
    (writeAll writes buf)[e.1.toNat]? = some e.2 := by
  induction writes generalizing buf with
  | nil => cases he
  | cons e' writes ih =>
    rw [List.map_cons, List.nodup_cons] at hd
    rw [writeAll, List.foldl_cons]
    rcases List.mem_cons.mp he with rfl | he
    · refine (writeAll_getElem?_of_not_mem writes _ _ fun e' he' heq => hd.1 ?_).trans ?_
      · exact List.mem_map.mpr ⟨e', he', heq⟩
      · simp [hn]
    · exact ih _ hd.2 he

/-- The destinations of `PERM` are distinct and inside the word (R93). -/
theorem permTable_distinct : (permTable.toList.map BitVec.toNat).Nodup ∧ ∀ k : Fin 162, (permTable.get k).toNat < 162 := by
  decide +kernel

/-- Codeword bit `k` is at position `PERM[k]` afterwards, whatever the buffer held (R90). -/
theorem scatter_getElem? (c buf : BitSeq 162) (k : Fin 162) :
    (scatter c buf)[(permTable.get k).toNat]? = some (c.get k) := by
  have hmem : (permTable.get k, c.get k) ∈ permTable.toList.zip c.toList :=
    List.mem_iff_getElem.mpr ⟨k.val, by simp, by simp [Vector.get_eq_getElem]⟩
  have hdst : (permTable.toList.zip c.toList).map (fun e => e.1.toNat) = permTable.toList.map BitVec.toNat := by
    rw [show (fun e : BitVec 8 × Bool => e.1.toNat) = BitVec.toNat ∘ Prod.fst from rfl, ← List.map_map,
      List.map_fst_zip (by simp)]
  rw [scatter_eq_writeAll]
  exact writeAll_getElem? _ buf (hdst ▸ permTable_distinct.1) _ hmem (permTable_distinct.2 k)

end Sys2Proof.Machine
end

