-- ==== Sys2Proof/Laws/Merger.lean ====
section
/-! SUPPORT. The symbols that MERGE_SYNC makes (R95). -/

namespace Sys2Proof.Machine

/-- A symbol as a number. -/
theorem symbolOf_val (data sync : Bool) : (symbolOf data sync).val = 2 * data.toNat + sync.toNat := by
  cases data <;> cases sync <;> rfl

/-- Symbol `i` is made of data bit `i` and sync bit `i` (R95). -/
theorem Txn.mergeSync_get (p : Params) (t : Txn) (i : Fin 162) :
    (t.mergeSync p).symbols.get i = symbolOf (t.interleaved.get i) (p.sync.get i) := by
  simp [Vector.get_eq_getElem]

end Sys2Proof.Machine
end

