-- ==== Sys2Proof/Laws/Ops.lean ====
section
/-! SUPPORT. What each shared operation can do, said once: the decoder, the fetch, the sequencer's advance, a packing
stage's commit, and one step. -/

namespace Sys2Proof.Machine

/-! ### The decoder -/

/-- Decoding what an operation encodes to gives it back, with the requests behind it. -/
theorem decode_encode (i : Instr) (rest : List Request) :
    decode i.opId ((encode i).2 ++ rest) = .ok (i, rest) := by
  cases i <;> rfl

/-- ENCODE reads the oldest request. -/
@[simp] theorem decode_encode_op (r : Request) (rest : List Request) :
    decode 0#4 (r :: rest) = .ok (.encode r, rest) := rfl

/-- With no request there is nothing to read for ENCODE. -/
@[simp] theorem decode_no_request : decode 0#4 [] = .error .noRequest := rfl

/-- Every way the decoder can answer an operation. -/
theorem decode_ok {op : OpId} {requests rest : List Request} {i : Instr} (h : decode op requests = .ok (i, rest)) :
    op = i.opId ∧ requests = (encode i).2 ++ rest := by
  unfold decode at h
  split at h
  case h_1 h0 =>
    cases requests with
    | nil => cases h
    | cons r tail => cases h; exact ⟨BitVec.eq_of_toNat_eq h0, rfl⟩
  case h_10 => cases h
  all_goals
    cases h
    exact ⟨BitVec.eq_of_toNat_eq (by assumption), rfl⟩

/-- Two operations with one identifier are the same, where it is not ENCODE's. -/
theorem eq_of_opId {i j : Instr} (hj : j.opId ≠ 0) (h : j.opId = i.opId) : i = j := by
  cases i <;> cases j <;> first | rfl | (exfalso; first | exact hj rfl | (revert h; simp [Instr.opId]))

/-- Every way the decoder can refuse. -/
theorem decode_error {op : OpId} {requests : List Request} {e : DecodeError} (h : decode op requests = .error e) :
    (op = 0 ∧ requests = [] ∧ e = .noRequest) ∨ (9 ≤ op.toNat ∧ e = .unassignedOp op) := by
  unfold decode at h
  split at h
  case h_1 h0 =>
    cases requests with
    | nil => cases h; exact .inl ⟨BitVec.eq_of_toNat_eq h0, rfl, rfl⟩
    | cons r tail => cases h
  case h_10 =>
    cases h
    refine .inr ⟨Nat.le_of_not_lt fun hlt => ?_, rfl⟩
    interval_cases op.toNat <;> simp_all
  all_goals cases h

/-! ### The packing stages' commit -/

/-- A commit writes the storage back or raises. -/
theorem State.commit_cases (s : State) (result : Except ErrorKind Txn) :
    (∃ t, result = .ok t ∧ s.commit result = { s with txn := t }) ∨
      ∃ e, result = .error e ∧ s.commit result = s.raise e := by
  cases result with
  | ok t => exact .inl ⟨t, rfl, rfl⟩
  | error e => exact .inr ⟨e, rfl, rfl⟩

/-! ### The sequencer -/

/-- After a raise the sequencer does nothing more. -/
theorem State.advance_done (s : State) (i : Instr) (h : s.txn.stage = .done) : s.advance i = s := by
  simp [State.advance, h]

/-- The sequencer never touches the requests or the form it takes for them. -/
theorem State.advance_keeps (s : State) (i : Instr) :
    (s.advance i).requests = s.requests ∧ (s.advance i).stepping = s.stepping := by
  unfold State.advance
  split
  · exact ⟨rfl, rfl⟩
  · cases i <;> exact ⟨rfl, rfl⟩

/-- The sequencer's only delivery is the `ok` response after MERGE_SYNC. -/
theorem State.advance_responses (s : State) (i : Instr) :
    (s.advance i).responses = s.responses ∨
      (i = .mergeSync ∧ (s.advance i).responses = s.responses ++ [.ok s.txn.symbols]) := by
  unfold State.advance
  split
  · exact .inl rfl
  · cases i <;> first | exact .inl rfl | exact .inr ⟨rfl, rfl⟩

/-- Counting on at a step index of 0..80. -/
theorem Txn.countStep_of_lt (t : Txn) (h : t.k.val < 81) :
    t.countStep = { t with k := ⟨t.k.val + 1, by omega⟩ } := by
  simp [Txn.countStep, h]

/-- After a CONV_STEP the sequencer counts on and stays in its stage (R104). -/
theorem State.advance_convStep (s : State) (hd : s.txn.stage ≠ .done) (h : s.txn.k.val < 81) :
    s.advance .convStep =
      { s with op := 5, txn := { s.txn with stage := .conv, k := ⟨s.txn.k.val + 1, by omega⟩ } } := by
  simp only [State.advance, if_neg hd, Txn.countStep_of_lt _ h]
  rfl

/-- When the encoder's stage has nothing left to do. -/
theorem State.convDone_iff (s : State) :
    s.convDone = true ↔ s.txn.stage = .conv ∧ s.op = Instr.convStep.opId ∧ s.txn.k = 81 := by
  simp [State.convDone]

/-- Where another operation than CONV_STEP is next, the encoder's stage is not just to be left. -/
theorem State.convDone_of_op {s : State} (h : s.op ≠ Instr.convStep.opId) : s.convDone = false := by
  simp [State.convDone, h]

/-- With a step index left, the encoder's stage is not just to be left. -/
theorem State.convDone_of_lt {s : State} (h : s.txn.k.val < 81) : s.convDone = false := by
  have h1 : s.txn.k ≠ 81 := fun he => absurd (he ▸ h) (by decide)
  simp [State.convDone, h1]

/-- Every answer of the fetch. -/
theorem State.fetch_cases (s : State) :
    (s.txn.stage = .done ∧ s.fetch = .finish) ∨
    (s.txn.stage = .conv ∧ s.op = Instr.convStep.opId ∧ s.txn.k = 81 ∧ s.fetch = .leaveConv) ∨
    (s.txn.stage ≠ .done ∧ s.op = 0 ∧ s.requests = [] ∧ s.fetch = .wait) ∨
    (s.txn.stage ≠ .done ∧ 9 ≤ s.op.toNat ∧ s.fetch = .unassigned s.op) ∨
    (∃ r rest, s.txn.stage ≠ .done ∧ s.stepping = .staged ∧ s.op = 0 ∧ s.requests = r :: rest ∧
      s.fetch = .start r { s with requests := rest }) ∨
    ∃ i rest, s.txn.stage ≠ .done ∧ s.convDone = false ∧ decode s.op s.requests = .ok (i, rest) ∧
      (s.stepping = .atomic ∨ ∀ r, i ≠ .encode r) ∧ s.fetch = .run i { s with requests := rest } := by
  by_cases hd : s.txn.stage = .done
  · exact .inl ⟨hd, by simp [State.fetch, hd]⟩
  refine .inr ?_
  cases hc : s.convDone with
  | true =>
    obtain ⟨h1, h2, h3⟩ := s.convDone_iff.mp hc
    exact .inl ⟨h1, h2, h3, by simp [State.fetch, hd, hc]⟩
  | false =>
  refine .inr ?_
  cases hdec : decode s.op s.requests with
  | error e =>
    obtain ⟨hop, hreq, rfl⟩ | ⟨hop, rfl⟩ := decode_error hdec
    · exact .inl ⟨hd, hop, hreq, by simp [State.fetch, hd, hc, hdec]⟩
    · exact .inr (.inl ⟨hd, hop, by simp [State.fetch, hd, hc, hdec]⟩)
  | ok result =>
    obtain ⟨i, rest⟩ := result
    refine .inr (.inr ?_)
    obtain ⟨hop, hreq⟩ := decode_ok hdec
    cases i with
    | encode r =>
      cases hs : s.stepping with
      | staged => exact .inl ⟨r, rest, hd, rfl, hop, hreq, by simp [State.fetch, hd, hc, hdec, hs]⟩
      | atomic => exact .inr ⟨_, rest, hd, rfl, rfl, .inl rfl, by simp [State.fetch, hd, hc, hdec, hs]⟩
    | _ => exact .inr ⟨_, rest, hd, rfl, rfl, .inr (by intro r; simp), by simp [State.fetch, hd, hc, hdec]⟩

/-- Everything a step that answers a next state can have done. -/
theorem step_cases {s t : State} (h : step s = .next t) :
    (s.txn.stage = .done ∧ t = s.discard) ∨
    (s.txn.stage = .conv ∧ s.op = Instr.convStep.opId ∧ s.txn.k = 81 ∧ t = s.enter .interleave .interleave) ∨
    (s.txn.stage ≠ .done ∧ s.op = 0 ∧ s.requests = [] ∧ t = s) ∨
    (∃ r rest, s.txn.stage ≠ .done ∧ s.stepping = .staged ∧ s.op = 0 ∧ s.requests = r :: rest ∧
      t = State.begin { s with requests := rest } r) ∨
    ∃ i rest u, s.txn.stage ≠ .done ∧ s.convDone = false ∧ decode s.op s.requests = .ok (i, rest) ∧
      (s.stepping = .atomic ∨ ∀ r, i ≠ .encode r) ∧ exec i { s with requests := rest } = .next u ∧
      t = u.advance i := by
  unfold step at h
  obtain ⟨hd, hf⟩ | ⟨hst, hop, hk, hf⟩ | ⟨hd, hop, hreq, hf⟩ | ⟨hd, hop, hf⟩ | ⟨r, rest, hd, hs, hop, hreq, hf⟩ |
    ⟨i, rest, hd, hc, hdec, hs, hf⟩ := s.fetch_cases <;> rw [hf] at h <;> dsimp only at h
  · cases h; exact .inl ⟨hd, rfl⟩
  · cases h; exact .inr (.inl ⟨hst, hop, hk, rfl⟩)
  · cases h; exact .inr (.inr (.inl ⟨hd, hop, hreq, rfl⟩))
  · cases h
  · cases h; exact .inr (.inr (.inr (.inl ⟨r, rest, hd, hs, hop, hreq, rfl⟩)))
  · split at h <;> cases h
    exact .inr (.inr (.inr (.inr ⟨i, rest, _, hd, hc, hdec, hs, by assumption, rfl⟩)))

end Sys2Proof.Machine
end

