-- ==== Sys2Proof/Laws/Packer.lean ====
section
/-! SUPPORT. What each field function accepts, and what each packing stage then does, said once. -/

namespace Sys2Proof.Machine

/-! ### The field functions -/

/-- The digit position is 1 or 2 and holds a digit (R59). -/
theorem digitPos_some {scan : DigitScan} {s : List Octet} {d : Nat} (h : digitPos scan s = some d) :
    (d = 1 ∨ d = 2) ∧ digitAt s d = true := by
  cases scan <;> simp only [digitPos] at h <;> split_ifs at h <;> cases h <;> simp_all

/-- All that an accepted callsign has passed, and the field it gives (R56). -/
theorem callsignField_ok {scan : DigitScan} {s : List Octet} {call6 : Vector Octet 6} {n : BitVec 28} :
    callsignField scan s = .ok (call6, n) ↔
      4 ≤ s.length ∧ s.length ≤ 6 ∧ (s.all fun b => isDigit b || isUpper b) = true ∧
        ∃ d, digitPos scan s = some d ∧ 2 - d + s.length ≤ 6 ∧ trailingOk (normalize (2 - d) s) = true ∧
          call6 = normalize (2 - d) s ∧ n = BitVec.ofNat 28 (callPack (normalize (2 - d) s)) := by
  unfold callsignField
  by_cases hlen : 4 ≤ s.length ∧ s.length ≤ 6
  · by_cases hall : (s.all fun b => isDigit b || isUpper b) = true
    · rw [if_neg (not_not.mpr hlen), if_neg (not_not.mpr hall)]
      cases hd : digitPos scan s with
      | none => simp
      | some d =>
        simp only [hlen, hall, true_and]
        split_ifs with hfit htrail
        · simp; omega
        · constructor
          · intro h
            cases h
            exact ⟨d, rfl, Nat.le_of_not_gt hfit, htrail, rfl, rfl⟩
          · rintro ⟨d', hd', -, -, rfl, rfl⟩
            cases hd'
            rfl
        · simp [htrail]
    · rw [if_neg (not_not.mpr hlen), if_pos hall]
      simp [hall]
  · rw [if_pos hlen]
    simp only [reduceCtorEq, false_iff]
    exact fun h => hlen ⟨h.1, h.2.1⟩

/-- The only error of a callsign (R56, R106). -/
theorem callsignField_error {scan : DigitScan} {s : List Octet} {e : ErrorKind}
    (h : callsignField scan s = .error e) : e = .invalidCallsign := by
  unfold callsignField at h
  repeat' first
    | (cases h; done)
    | (cases h; rfl)
    | split at h

/-- All that an accepted locator has passed, and the field it gives (R65). -/
theorem locatorField_ok {g : List Octet} {l : BitVec 15} :
    locatorField g = .ok l ↔
      ∃ g0 g1 g2 g3, g = [g0, g1, g2, g3] ∧ isLocLetter g0 = true ∧ isLocLetter g1 = true ∧ isDigit g2 = true ∧
        isDigit g3 = true ∧ l = BitVec.ofNat 15 (locatorPack g0 g1 g2 g3) := by
  unfold locatorField
  split
  · next g0 g1 g2 g3 =>
    split_ifs with h
    · simp only [Bool.and_eq_true] at h
      constructor
      · intro hl; cases hl; exact ⟨_, _, _, _, rfl, h.1.1.1, h.1.1.2, h.1.2, h.2, rfl⟩
      · rintro ⟨_, _, _, _, hg, -, -, -, -, rfl⟩; cases hg; rfl
    · constructor
      · intro hl; cases hl
      · rintro ⟨_, _, _, _, hg, h0, h1, h2, h3, -⟩; cases hg; simp [h0, h1, h2, h3] at h
  · next hne =>
    constructor
    · intro hl; cases hl
    · rintro ⟨g0, g1, g2, g3, rfl, -⟩; exact absurd rfl (hne g0 g1 g2 g3)

/-- The only error of a locator (R65, R106). -/
theorem locatorField_error {g : List Octet} {e : ErrorKind} (h : locatorField g = .error e) : e = .invalidGrid := by
  unfold locatorField at h
  split at h
  · split_ifs at h; cases h; rfl
  · cases h; rfl

/-- All that an accepted power has passed, and the field it gives (R70). -/
theorem powerField_ok {power : Int} {q : BitVec 7} :
    powerField power = .ok q ↔ ValidPower power ∧ q = BitVec.ofNat 7 (powerStep power + 64) := by
  unfold powerField ValidPower
  split_ifs with h
  · simp; omega
  · rw [Except.ok.injEq, eq_comm]; constructor
    · exact fun hq => ⟨by omega, hq⟩
    · exact fun hq => hq.2

/-- The only error of a power (R70, R106). -/
theorem powerField_error {power : Int} {e : ErrorKind} (h : powerField power = .error e) : e = .invalidPower := by
  unfold powerField at h
  split_ifs at h; cases h; rfl

/-! ### The packing stages -/

/-- Octet `i` of the normalized callsign (R60). -/
theorem normalize_get (pad : Nat) (s : List Octet) (i : Fin 6) :
    (Machine.normalize pad s).get i = (List.replicate pad space ++ s).getD i.val space := by
  simp [Machine.normalize, Vector.get_eq_getElem]

/-- The normalized callsign as a text, where it fits (R60). -/
theorem normalize_toList (pad : Nat) (s : List Octet) (h : pad + s.length ≤ 6) :
    (Machine.normalize pad s).toList =
      List.replicate pad space ++ s ++ List.replicate (6 - pad - s.length) space := by
  refine List.ext_getElem (by simp; omega) fun i h1 h2 => ?_
  have h6 : i < 6 := by simpa using h1
  have hget := normalize_get pad s ⟨i, h6⟩
  simp only [Vector.get_eq_getElem] at hget
  simp only [Vector.getElem_toList, hget, List.getD_eq_getElem?_getD]
  by_cases hlt : i < pad + s.length
  · rw [List.getElem_append_left (by simpa using hlt), List.getElem?_eq_getElem (by simpa using hlt)]; rfl
  · rw [List.getElem_append_right (by simpa using hlt), List.getElem?_eq_none (by simpa using hlt)]; simp

/-- The trailing class, position by position (R61). -/
theorem trailingOk_iff (call6 : Vector Octet 6) :
    trailingOk call6 = true ↔ ∀ i : Fin 6, 3 ≤ i.val → isUpper (call6.get i) = true ∨ call6.get i = space := by
  simp only [trailingOk, Bool.and_eq_true, Bool.or_eq_true, beq_iff_eq, Vector.get_eq_getElem]
  constructor
  · rintro ⟨⟨h3, h4⟩, h5⟩ ⟨i, hi⟩ h
    dsimp only at h ⊢
    interval_cases i <;> assumption
  · intro h
    exact ⟨⟨h 3 (by decide), h 4 (by decide)⟩, h 5 (by decide)⟩

/-- PACK_CALLSIGN writes `CALL6` and `N`, or raises InvalidCallsign (R56). -/
theorem execPackCallsign_cases (s : State) :
    (∃ call6 n, callsignField hardware.digitScan s.txn.request.callsign = .ok (call6, n) ∧
      exec .packCallsign s = .next { s with txn := { s.txn with call6 := call6, nField := n } }) ∨
    ((∃ e, callsignField hardware.digitScan s.txn.request.callsign = .error e) ∧
      exec .packCallsign s = .next (s.raise .invalidCallsign)) := by
  cases h : callsignField hardware.digitScan s.txn.request.callsign with
  | ok field =>
    obtain ⟨call6, n⟩ := field
    exact .inl ⟨call6, n, rfl, by simp only [exec, execPackCallsign, Txn.packCallsign, h]; rfl⟩
  | error e =>
    refine .inr ⟨⟨e, rfl⟩, ?_⟩
    cases callsignField_error h
    simp only [exec, execPackCallsign, Txn.packCallsign, h]
    rfl

/-- PACK_LOCATOR writes `L`, or raises InvalidGrid (R65). -/
theorem execPackLocator_cases (s : State) :
    (∃ l, locatorField s.txn.request.locator = .ok l ∧
      exec .packLocator s = .next { s with txn := { s.txn with lField := l } }) ∨
    ((∃ e, locatorField s.txn.request.locator = .error e) ∧
      exec .packLocator s = .next (s.raise .invalidGrid)) := by
  cases h : locatorField s.txn.request.locator with
  | ok l => exact .inl ⟨l, rfl, by simp only [exec, execPackLocator, Txn.packLocator, h]; rfl⟩
  | error e =>
    refine .inr ⟨⟨e, rfl⟩, ?_⟩
    cases locatorField_error h
    simp only [exec, execPackLocator, Txn.packLocator, h]
    rfl

/-- PACK_POWER writes `P`, or raises InvalidPower (R70). -/
theorem execPackPower_cases (s : State) :
    (∃ q, powerField s.txn.request.power = .ok q ∧
      exec .packPower s = .next { s with txn := { s.txn with pField := q } }) ∨
    ((∃ e, powerField s.txn.request.power = .error e) ∧
      exec .packPower s = .next (s.raise .invalidPower)) := by
  cases h : powerField s.txn.request.power with
  | ok q => exact .inl ⟨q, rfl, by simp only [exec, execPackPower, Txn.packPower, h]; rfl⟩
  | error e =>
    refine .inr ⟨⟨e, rfl⟩, ?_⟩
    cases powerField_error h
    simp only [exec, execPackPower, Txn.packPower, h]
    rfl

/-- What the three packing stages together leave: all three fields, or the first failing field's error (R98, R99). -/
theorem Txn.pack_cases (p : Params) (t : Txn) :
    (∃ call6 n l q, callsignField p.digitScan t.request.callsign = .ok (call6, n) ∧
      locatorField t.request.locator = .ok l ∧ powerField t.request.power = .ok q ∧
      t.pack p = .ok { t with call6 := call6, nField := n, lField := l, pField := q }) ∨
    ((∃ e, callsignField p.digitScan t.request.callsign = .error e) ∧ t.pack p = .error .invalidCallsign) ∨
    ((∃ field, callsignField p.digitScan t.request.callsign = .ok field) ∧
      (∃ e, locatorField t.request.locator = .error e) ∧ t.pack p = .error .invalidGrid) ∨
    ((∃ field, callsignField p.digitScan t.request.callsign = .ok field) ∧
      (∃ l, locatorField t.request.locator = .ok l) ∧
      (∃ e, powerField t.request.power = .error e) ∧ t.pack p = .error .invalidPower) := by
  cases hc : callsignField p.digitScan t.request.callsign with
  | error e =>
    cases callsignField_error hc
    exact .inr (.inl ⟨⟨_, rfl⟩, by simp only [Txn.pack, Txn.packCallsign, hc]⟩)
  | ok field =>
    obtain ⟨call6, n⟩ := field
    cases hl : locatorField t.request.locator with
    | error e =>
      cases locatorField_error hl
      exact .inr (.inr (.inl ⟨⟨_, rfl⟩, ⟨_, rfl⟩, by simp only [Txn.pack, Txn.packCallsign, Txn.packLocator, hc, hl]⟩))
    | ok l =>
      cases hq : powerField t.request.power with
      | error e =>
        cases powerField_error hq
        exact .inr (.inr (.inr ⟨⟨_, rfl⟩, ⟨_, rfl⟩, ⟨_, rfl⟩,
          by simp only [Txn.pack, Txn.packCallsign, Txn.packLocator, Txn.packPower, hc, hl, hq]⟩))
      | ok q =>
        exact .inl ⟨call6, n, l, q, rfl, rfl, rfl,
          by simp only [Txn.pack, Txn.packCallsign, Txn.packLocator, Txn.packPower, hc, hl, hq]⟩

end Sys2Proof.Machine
end

