-- ==== Sys2Proof/Laws/PerInstr.lean ====
section
/-! SUPPORT. One law for each operation: its encoding decodes to it, whatever requests stand behind it. -/

namespace Sys2Proof.Laws.DecodeEncode

/-- The encoding of `i`, in front of any requests, decodes to `i` and leaves them. -/
def Statement (i : Instr) : Prop :=
  ∀ rest : List Request, decode (Sys2Proof.encode i).1 ((Sys2Proof.encode i).2 ++ rest) = .ok (i, rest)

theorem encode (r : Request) : Statement (.encode r) := fun _ => rfl
theorem packCallsign : Statement .packCallsign := fun _ => rfl
theorem packLocator : Statement .packLocator := fun _ => rfl
theorem packPower : Statement .packPower := fun _ => rfl
theorem assemble : Statement .assemble := fun _ => rfl
theorem convStep : Statement .convStep := fun _ => rfl
theorem convEncode : Statement .convEncode := fun _ => rfl
theorem interleave : Statement .interleave := fun _ => rfl
theorem mergeSync : Statement .mergeSync := fun _ => rfl

end Sys2Proof.Laws.DecodeEncode
end

