-- ==== Sys2Proof/Laws/Port.lean ====
section
/-! SUPPORT. The 324-bit symbol word: what each of its two-bit fields holds (R43). -/

namespace Sys2Proof.Machine

/-- The base-4 number of a list of symbols fits two bits a symbol. -/
theorem symbolDigits_lt (symbols : List Symbol) :
    symbols.foldr (fun s high => s.val + 4 * high) 0 < 4 ^ symbols.length := by
  induction symbols with
  | nil => decide
  | cons a symbols ih =>
    have := a.isLt
    simp only [List.foldr, List.length_cons, pow_succ]
    omega

/-- Digit `i` of that number is symbol `i`. -/
theorem symbolDigits_getElem? (symbols : List Symbol) (i : Nat) :
    symbols.foldr (fun s high => s.val + 4 * high) 0 / 4 ^ i % 4 = ((symbols[i]?).map (·.val)).getD 0 := by
  induction symbols generalizing i with
  | nil => simp
  | cons a symbols ih =>
    have ha := a.isLt
    cases i with
    | zero => simp [List.foldr]
    | succ i =>
      simp only [List.foldr, List.getElem?_cons_succ, ← ih i, pow_succ', ← Nat.div_div_eq_div_mul]
      congr 2
      omega

/-- The symbol word as a number. -/
theorem symbolsWord_toNat (symbols : Vector Symbol 162) :
    (symbolsWord symbols).toNat = symbols.toList.foldr (fun s high => s.val + 4 * high) 0 := by
  have h := symbolDigits_lt symbols.toList
  rw [Vector.length_toList, show (4 : Nat) ^ 162 = 2 ^ 324 by rw [show 324 = 2 * 162 from rfl, Nat.pow_mul]] at h
  exact (BitVec.toNat_ofNat _ _).trans (Nat.mod_eq_of_lt h)

/-- Bits `2i+1` and `2i` of the symbol word are symbol `i` (R43). -/
theorem symbolsWord_field (symbols : Vector Symbol 162) (i : Fin 162) :
    (symbolsWord symbols).toNat / 2 ^ (2 * i.val) % 4 = (symbols.get i).val := by
  rw [symbolsWord_toNat, Nat.pow_mul, symbolDigits_getElem?]
  simp [Vector.get_eq_getElem]

/-- Reading symbol `i` off the symbol word gives it back (R43). -/
theorem symbolAt_symbolsWord (symbols : Vector Symbol 162) (i : Fin 162) :
    symbolAt (symbolsWord symbols) i = symbols.get i := by
  have h := symbolsWord_field symbols i
  rw [← Nat.shiftRight_eq_div_pow] at h
  exact Fin.ext h

end Sys2Proof.Machine
end

