-- ==== Sys2Proof/Laws/Run.lean ====
section
/-! SUPPORT. Several steps of the machine behind the host's interface, one at a time. -/

namespace Sys2Proof.Machine

/-- A run of no step stays where it is. -/
theorem run_zero (s : State) : Sys2Proof.core.run 0 s = .next s := rfl

/-- A run whose first step answers a next state goes on from it. -/
theorem run_succ {s t : State} (n : Nat) (h : step s = .next t) :
    Sys2Proof.core.run (n + 1) s = Sys2Proof.core.run n t := by
  have unfolded : ∀ (M : Host.Core) (a : M.State), M.run (n + 1) a =
      match M.step a with
      | .next b => M.run n b
      | .fault r => .fault r
      | .refused r => .refused r := fun _ _ => rfl
  have hstep : Sys2Proof.core.step s = .next t := h
  exact (unfolded Sys2Proof.core s).trans (by rw [hstep])

end Sys2Proof.Machine
end

