-- ==== Sys2Proof/Tests/Slice0.lean ====
section
/-! SUPPORT. The model's own tests. Every expected value is the spec's: a worked example of an operation's rule, a table, or a
vector of 95_test_vectors.md. The second half holds, for every statement with hypotheses, states and operands that meet
them all, at the boundary values of each clause. -/

namespace Sys2Proof.Tests

open Sys2Proof Sys2Proof.Machine

/-! ### Helpers -/

/-- A text by its octets. -/
def text (octets : List Nat) : List Octet := octets.map (BitVec.ofNat 8)

def w1aw : List Octet := text [0x57, 0x31, 0x41, 0x57]
def ka1bcd : List Octet := text [0x4B, 0x41, 0x31, 0x42, 0x43, 0x44]
def k1abc : List Octet := text [0x4B, 0x31, 0x41, 0x42, 0x43]
def fm17 : List Octet := text [0x46, 0x4D, 0x31, 0x37]
def fn42 : List Octet := text [0x46, 0x4E, 0x34, 0x32]

/-- The request of vector V-X1. -/
def vx1 : Request := ⟨k1abc, fn42, 37⟩

/-- The symbols of vector V-X1, off its port word. -/
def vx1Symbols : Vector Symbol 162 :=
  Vector.ofFn (symbolAt 0xA9C2FBBE2AAD2C402F6A678F958E12232B3BC2DB2619333CA9B686F85BA0AE4B022BDEC1A9D21020F)

/-- A state with the transaction storage `t`. -/
def holding (t : Txn) : State := { State.reset with txn := t }

/-- A state whose transaction is for `r`. -/
def request (r : Request) : State := holding (Txn.start r)

/-- What `f` gives on the storage after `i`, if `i` completes. -/
def after {α : Type} (i : Instr) (s : State) (f : State → α) : Option α :=
  match exec i s with
  | .next t => some (f t)
  | .fault _ => none
  | .refused _ => none

/-- A bit sequence as a binary number, element 0 first. -/
def number {n : Nat} (bits : BitSeq n) : Nat := bits.toList.foldl (fun acc b => 2 * acc + b.toNat) 0

/-- The sequence with a single 1, at index `i`. -/
def single (n i : Nat) : BitSeq n := Vector.ofFn fun j => decide (j.val = i)

/-! ### Well-formedness -/

/-- R53: 8 is the last assigned identifier. -/
theorem test_op_id_assigned : opIdAssigned 8 = true ∧ opIdAssigned 9 = false ∧ opIdAssigned 15 = false := by decide

/-- R25: a 7-bit port carries -64..63. -/
theorem test_port_refuses_wide_power :
    Instr.wellFormed 7 (.encode ⟨[], [], 64⟩) = false ∧ Instr.wellFormed 7 (.encode ⟨[], [], -65⟩) = false ∧
      Instr.wellFormed 7 (.encode ⟨[], [], 63⟩) = true ∧ Instr.wellFormed 0 (.encode ⟨[], [], 0⟩) = false := by decide

/-- R7: a port must have at least 7 bits. -/
theorem test_params_refuse_narrow_port :
    Params.wellFormed { hardware with powerWidth := 6 } = false ∧ Params.wellFormed hardware = true := by decide

/-! ### Decoding: the words of R52 -/

theorem test_decode_encode : decodeTableWord 8 0b0000 = some (.encode Request.zero) := by decide
theorem test_decode_packer :
    decodeTableWord 8 0b0001 = some .packCallsign ∧ decodeTableWord 8 0b0010 = some .packLocator ∧
      decodeTableWord 8 0b0011 = some .packPower := by decide
theorem test_decode_assembler : decodeTableWord 8 0b0100 = some .assemble := by decide
theorem test_decode_convolutional :
    decodeTableWord 8 0b0101 = some .convStep ∧ decodeTableWord 8 0b0110 = some .convEncode := by decide
theorem test_decode_interleaver : decodeTableWord 8 0b0111 = some .interleave := by decide
theorem test_decode_merger : decodeTableWord 8 0b1000 = some .mergeSync := by decide

/-- R53: 9..15 name nothing. -/
theorem test_decode_rejects_unassigned :
    ((List.range 16).filter fun w => (decodeTableWord 8 w).isNone) = [9, 10, 11, 12, 13, 14, 15] := by decide

/-- The host's placement runs the placed operation next; an unassigned word is refused. -/
theorem test_placed_word_runs :
    step (State.reset.withFetchWord 8 4) =
        .next { State.reset with op := 5, txn := { Txn.idle.assemble with stage := .conv } } ∧
      step (State.reset.withFetchWord 8 9) = .refused (.unassignedOp 9) := ⟨rfl, rfl⟩

/-! ### One or two tests an operation -/

/-- R56's worked example: "W1AW" gives `CALL6` = " W1AW " and N = 261410543. -/
theorem test_pack_callsign :
    after .packCallsign (request ⟨w1aw, [], 0⟩) (fun t => (t.txn.call6.toList, t.txn.nField)) =
      some (text [0x20, 0x57, 0x31, 0x41, 0x57, 0x20], 261410543) := by decide +kernel

/-- R59: "A61AB" is rejected under `FIRST_DIGIT` and gives N = 72059516 under `INDEX2_FIRST`. -/
theorem test_digit_scan :
    callsignField .firstDigit (text [0x41, 0x36, 0x31, 0x41, 0x42]) = .error .invalidCallsign ∧
      (callsignField .index2First (text [0x41, 0x36, 0x31, 0x41, 0x42])).toOption.map (·.2) = some 72059516 := by
  decide +kernel

/-- R65's worked example: "FM17" gives L = 23167. -/
theorem test_pack_locator :
    after .packLocator (request ⟨[], fm17, 0⟩) (fun t => t.txn.lField) = some 23167 := by decide +kernel

/-- C9: 'S' is outside A..R, so "FS17" raises InvalidGrid. -/
theorem test_pack_locator_rejects :
    after .packLocator (request ⟨[], text [0x46, 0x53, 0x31, 0x37], 0⟩) (fun t => (t.responses, t.txn.stage)) =
      some ([.err .invalidGrid], .done) := by decide +kernel

/-- R70: 37 and 38 give P = 101, 59 gives 121. -/
theorem test_pack_power :
    [37, 38, 59].map (fun p : Int => after .packPower (request ⟨[], [], p⟩) (fun t => t.txn.pField)) =
      [some 101, some 101, some 121] := by decide +kernel

/-- V-S12: -1 and 61 fail. -/
theorem test_pack_power_rejects :
    [-1, 61].map (fun p : Int => after .packPower (request ⟨[], [], p⟩) (fun t => t.responses)) =
      [some [.err .invalidPower], some [.err .invalidPower]] := by decide +kernel

/-- R77's worked example. -/
theorem test_assemble :
    after .assemble (holding { Txn.idle with nField := 0xF70C238, lField := 0x5868, pField := 0x65 })
        (fun t => (t.txn.word, number t.txn.input)) =
      some (0x3DC308E2C3465, 0x1EE1847161A3280000000) := by decide +kernel

/-- R82's worked example, first step: from `SR` = 0 with U[0] = 1. -/
theorem test_conv_step_first :
    after .convStep (holding { Txn.idle with input := single 81 0 })
        (fun t => (t.txn.sr, t.txn.codeword[0], t.txn.codeword[1])) = some (0x80000000, true, true) := by
  decide +kernel

/-- R82's worked example, second step: U[1] = 1 into 0x80000000. -/
theorem test_conv_step_second :
    after .convStep (holding { Txn.idle with sr := 0x80000000, k := 1, input := single 81 1 })
        (fun t => (t.txn.sr, t.txn.codeword[2], t.txn.codeword[3])) = some (0xC0000000, true, false) := by
  decide +kernel

/-- R86: the impulse response of U[0] = 1, then 98 zeros. -/
theorem test_conv_encode_impulse :
    after .convEncode (holding { Txn.idle with input := single 81 0 }) (fun t => number t.txn.codeword) =
      some (0b1101010010001100101001011101100001000000100111100010010010111111 * 2 ^ 98) := by decide +kernel

/-- R86: the impulse response of U[49] = 1 stands at the end, and the register is not flushed (R88). -/
theorem test_conv_encode_last_bit :
    after .convEncode (holding { Txn.idle with input := single 81 49 }) (fun t => (number t.txn.codeword, t.txn.sr)) =
      some (0b1101010010001100101001011101100001000000100111100010010010111111, 1) := by decide +kernel

/-- R90's worked examples: C[1] = 1 gives I[128] = 1 alone, C[81] = 1 gives I[1] = 1 alone, whatever `I` held. -/
theorem test_interleave :
    [1, 81].map (fun i => after .interleave
        (holding { Txn.idle with codeword := single 162 i, interleaved := Vector.replicate 162 true })
        (fun t => number t.txn.interleaved)) = [some (2 ^ (161 - 128)), some (2 ^ (161 - 1))] := by decide +kernel

/-- R95's worked example: I[0] = 1 gives S[0] = 3, I[2] = 0 gives S[2] = 0. -/
theorem test_merge_sync :
    after .mergeSync (holding { Txn.idle with interleaved := single 162 0 })
        (fun t => (t.txn.symbols[0], t.txn.symbols[2])) = some (3, 0) := by decide +kernel

/-- V-X1: the published reference vector. -/
theorem test_encode_vx1 : encodeRequest hardware vx1 = .ok vx1Symbols := by decide +kernel

/-- R98: with all three fields invalid the callsign's error is reported, with power 61 alone the power's. -/
theorem test_encode_errors :
    after (.encode ⟨[], [], 61⟩) State.reset (fun t => t.responses) = some [.err .invalidCallsign] ∧
      after (.encode ⟨k1abc, fn42, 61⟩) State.reset (fun t => t.responses) = some [.err .invalidPower] := by
  decide +kernel

/-! ### What the statements' hypotheses are met by -/

theorem witness_DecodeUndoesEncode :
    decode 0 [vx1, Request.zero] = .ok (.encode vx1, [Request.zero]) ∧ decode 8 [vx1] = .ok (.mergeSync, [vx1]) := by
  decide +kernel

theorem witness_UnassignedOpIdsAreRefused :
    ∀ op ∈ [(9 : OpId), 15], ({ State.reset with op := op } : State).txn.stage ≠ .done ∧ 9 ≤ op.toNat := by decide

theorem witness_PowerPortRoundTrip :
    Request.fitsPort 7 ⟨[], [], -64⟩ = true ∧ Request.fitsPort 7 ⟨[], [], 63⟩ = true ∧
      Request.fitsPort 1 ⟨[], [], -1⟩ = true ∧ Request.fitsPort 32 ⟨[], [], 60⟩ = true := by decide

/-- An idle block in the small-step form with one request waiting. -/
def stagedIdle : State := { State.reset with stepping := .staged, requests := [vx1] }

theorem witness_StagedTransactionStartsCleared :
    stagedIdle.Idle ∧ stagedIdle.stepping = .staged ∧ stagedIdle.requests = [vx1] := ⟨⟨rfl, rfl⟩, rfl, rfl⟩

theorem witness_IdleBlockWaits : State.reset.Idle ∧ State.reset.requests = [] := ⟨⟨rfl, rfl⟩, rfl⟩

/-- A state whose transaction is over. -/
def finished : State := holding { Txn.start vx1 with stage := .done }

theorem witness_FinishedTransactionIsDiscarded : finished.txn.stage = .done := rfl

/-- A state in the encoder's stage at the step index `k`. -/
def encoding (k : Fin 82) : State := { holding { Txn.start vx1 with stage := .conv, k := k } with op := 5 }

theorem witness_StepRunsTheDecodedOperation :
    ((State.reset.issue vx1).txn.stage ≠ .done ∧
      ¬((State.reset.issue vx1).txn.stage = .conv ∧ (State.reset.issue vx1).op = Instr.convStep.opId ∧
        (State.reset.issue vx1).txn.k = 81) ∧
      decode (State.reset.issue vx1).op (State.reset.issue vx1).requests = .ok (.encode vx1, []) ∧
      (State.reset.issue vx1).stepping = .atomic) ∧
    (encoding 80).txn.stage ≠ .done ∧
      ¬((encoding 80).txn.stage = .conv ∧ (encoding 80).op = Instr.convStep.opId ∧ (encoding 80).txn.k = 81) ∧
      decode (encoding 80).op (encoding 80).requests = .ok (.convStep, []) ∧ ∀ r, Instr.convStep ≠ .encode r := by
  exact ⟨⟨by decide, by decide, rfl, rfl⟩, by decide, by decide, rfl, nofun⟩

theorem witness_SequencerFollowsTheStages :
    ((encoding 81).txn.stage = .conv ∧ (encoding 81).op = Instr.convStep.opId ∧ (encoding 81).txn.k = 81) ∧
      (encoding 0).txn.stage ≠ .done ∧ (encoding 0).txn.k = (0 : Fin 81).castSucc ∧
      (encoding 80).txn.k = (80 : Fin 81).castSucc := by decide

/-- Each way out of each clause: at `k` = 81 the step stops only in a stage that is not the encoder's. -/
theorem witness_OnlyNamedStops :
    (∃ t, exec .convStep (encoding 80) = .next t) ∧ exec .convStep (encoding 81) = .fault .convIndexOutOfRange ∧
      (∃ t, step (encoding 81) = .next t) ∧
      step { holding { Txn.start vx1 with k := 81 } with op := 5 } = .fault .convIndexOutOfRange ∧
      step { State.reset with op := 9 } = .refused (.unassignedOp 9) :=
  ⟨⟨_, rfl⟩, rfl, ⟨_, rfl⟩, rfl, rfl⟩

/-- R104: the 81st CONV_STEP leaves the block in CONV with `k` = 81, and the step after it goes on to INTERLEAVE. -/
theorem test_leave_conv :
    (match step (encoding 80) with | .next t => decide (t.txn.stage = .conv ∧ t.txn.k = 81) | _ => false) = true ∧
      (match step (encoding 81) with | .next t => decide (t.txn.stage = .interleave ∧ t.op = 7) | _ => false) = true := by
  decide +kernel

theorem witness_OctetClassesPartition :
    [0x2F, 0x30, 0x39, 0x3A, 0x40, 0x41, 0x52, 0x53, 0x5A, 0x5B].map (fun b => octetClass (BitVec.ofNat 8 b)) =
      [.other, .digit, .digit, .other, .other, .locLetter, .locLetter, .upperOnly, .upperOnly, .other] := by decide

theorem witness_CharacterCodes :
    isDigit 0x30 = true ∧ isDigit 0x39 = true ∧ isUpper 0x41 = true ∧ isUpper 0x5A = true ∧
      (callsignField .firstDigit w1aw).toOption.isSome = true := by decide +kernel

theorem witness_CallsignLengthAndAlphabetChecked :
    (∀ s ∈ [[], text [0x57, 0x31, 0x41], ka1bcd ++ text [0x45]], ¬(s.length = 4 ∨ s.length = 5 ∨ s.length = 6)) ∧
      (0x6B : Octet) ∈ text [0x6B, 0x61, 0x31, 0x62] ∧ isDigit 0x6B = false ∧ isUpper 0x6B = false := by decide

/-- A callsign that is too short, and "KA1BC1", which fails by R61. -/
theorem witness_CallsignLengthAndAlphabetChecked_any :
    ¬ValidCallsign .firstDigit (request ⟨[], [], 0⟩).txn.request.callsign ∧
      ¬ValidCallsign .firstDigit (request ⟨text [0x4B, 0x41, 0x31, 0x42, 0x43, 0x31], [], 0⟩).txn.request.callsign := by
  constructor
  · rintro ⟨front, d, tail, h, -⟩
    cases front <;> cases h
  · rintro ⟨front, d, tail, h, -, hlen, -, hd, -, -, htail, -⟩
    match front, hlen with
    | [_], _ => cases h; exact absurd hd (by decide)
    | [_, _], _ => cases h; exact absurd htail (by decide)

/-- The same two serve for the clause about every rejected callsign. -/
theorem witness_CallsignAcceptedIffShaped :
    ¬ValidCallsign .firstDigit (request ⟨[], [], 0⟩).txn.request.callsign ∧
      ¬ValidCallsign .firstDigit (request ⟨text [0x4B, 0x41, 0x31, 0x42, 0x43, 0x31], [], 0⟩).txn.request.callsign :=
  witness_CallsignLengthAndAlphabetChecked_any

theorem witness_DigitPositionByScan :
    digitPos .firstDigit (text [0x41, 0x42, 0x43, 0x44]) = none ∧ isDigit 0x36 = true ∧ isDigit 0x31 = true := by decide

theorem witness_CallsignIsRightAligned :
    digitPos .firstDigit k1abc = some 1 ∧ digitPos .firstDigit ka1bcd = some 2 ∧
      digitPos .firstDigit (k1abc ++ text [0x44]) = some 1 ∧ 6 < 2 - 1 + (k1abc ++ text [0x44]).length ∧
      (callsignField .firstDigit k1abc).toOption.isSome = true ∧
      (callsignField .firstDigit ka1bcd).toOption.isSome = true := by decide +kernel

theorem witness_CallsignTrailingClass :
    digitPos .firstDigit (text [0x4B, 0x41, 0x31, 0x42, 0x43, 0x31]) = some 2 ∧
      isUpper ((normalize (2 - 2) (text [0x4B, 0x41, 0x31, 0x42, 0x43, 0x31])).get 5) = false ∧
      (normalize (2 - 2) (text [0x4B, 0x41, 0x31, 0x42, 0x43, 0x31])).get 5 ≠ 0x20 ∧
      digitPos .firstDigit (text [0x41, 0x36, 0x31, 0x41, 0x42]) = some 1 ∧
      isUpper ((normalize (2 - 1) (text [0x41, 0x36, 0x31, 0x41, 0x42])).get 3) = false ∧
      (normalize (2 - 1) (text [0x41, 0x36, 0x31, 0x41, 0x42])).get 3 ≠ 0x20 ∧
      ((callsignField .firstDigit w1aw).toOption.map fun field => field.1.get 5) = some 0x20 := by decide +kernel

theorem witness_CallsignLeadingPositions :
    (digitPos .firstDigit w1aw = some 1 ∧ (callsignField .firstDigit w1aw).toOption.isSome = true) ∧
      digitPos .firstDigit ka1bcd = some 2 ∧ (callsignField .firstDigit ka1bcd).toOption.isSome = true := by
  decide +kernel

/-- The callsigns at both ends of the range of N (R64). -/
theorem witness_CallsignFieldRange :
    ((callsignField .firstDigit (text [0x30, 0x41, 0x30, 0x41, 0x41, 0x41])).toOption.map (·.2)) = some 1968300 ∧
      ((callsignField .firstDigit (text [0x5A, 0x39, 0x5A, 0x5A])).toOption.map (·.2)) = some 262176803 ∧
      ((callsignField .index2First (text [0x30, 0x30, 0x30, 0x41, 0x41, 0x41])).toOption.map (·.2)) = some 0 := by
  decide +kernel

/-- One and two octets in front of the digit, one and three letters behind it. -/
theorem witness_PackCallsignCompletes :
    CallsignShape .firstDigit w1aw (text [0x57]) 0x31 (text [0x41, 0x57]) ∧
      CallsignShape .firstDigit ka1bcd (text [0x4B, 0x41]) 0x31 (text [0x42, 0x43, 0x44]) ∧
      CallsignShape .firstDigit (text [0x4B, 0x41, 0x31, 0x42]) (text [0x4B, 0x41]) 0x31 (text [0x42]) := by
  simp only [CallsignShape]
  decide

theorem witness_LocatorLengthAndClassesChecked :
    (fm17.take 3).length ≠ 4 ∧ (fm17 ++ text [0x41]).length ≠ 4 ∧
      isLocLetter 0x53 = false ∧ isLocLetter 0x40 = false ∧ isDigit 0x3A = false ∧ isDigit 0x2F = false := by decide

/-- "AR09" and "RA90", the ends of the range of L (R65). -/
theorem witness_PackLocatorCompletes :
    text [0x41, 0x52, 0x30, 0x39] =
        [BitVec.ofNat 8 (0x41 + 0), BitVec.ofNat 8 (0x41 + 17), BitVec.ofNat 8 (0x30 + 0), BitVec.ofNat 8 (0x30 + 9)] ∧
      text [0x52, 0x41, 0x39, 0x30] =
        [BitVec.ofNat 8 (0x41 + 17), BitVec.ofNat 8 (0x41 + 0), BitVec.ofNat 8 (0x30 + 9), BitVec.ofNat 8 (0x30 + 0)] := by
  decide

theorem witness_LocatorFieldIsABijection :
    (locatorField (text [0x41, 0x52, 0x30, 0x39])).toOption = some 32399 ∧
      (locatorField (text [0x52, 0x41, 0x39, 0x30])).toOption = some 0 := by decide

theorem witness_PowerRangeChecked :
    (request ⟨[], [], -1⟩).txn.request.power < 0 ∧ 60 < (request ⟨[], [], 61⟩).txn.request.power ∧
      (-1 : Int) = (0x7F : BitVec 7).toInt ∧ (61 : Int) = (61 : BitVec 7).toInt := by decide

theorem witness_PackPowerCompletes :
    ∀ p ∈ [(0 : Int), 60], 0 ≤ (request ⟨[], [], p⟩).txn.request.power ∧ (request ⟨[], [], p⟩).txn.request.power ≤ 60 := by
  decide

theorem witness_PowerFieldRange : (0 : Int) ≤ 0 ∧ (0 : Int) ≤ 60 ∧ (60 : Int) ≤ 60 := by decide

/-- Transactions that agree on one field's text or number and not on another's. -/
theorem witness_FieldsAreIndependent :
    (request ⟨w1aw, fm17, 30⟩).txn.request.callsign = (request ⟨w1aw, fn42, 61⟩).txn.request.callsign ∧
    (request ⟨w1aw, fm17, 30⟩).txn.request.power = (request ⟨k1abc, fm17, 30⟩).txn.request.power ∧
      (request ⟨w1aw, fm17, 30⟩).txn.request.locator = (request ⟨k1abc, fm17, 30⟩).txn.request.locator := ⟨rfl, rfl, rfl⟩

theorem witness_ConvStepCompletes :
    (encoding 0).txn.k = (0 : Fin 81).castSucc ∧ (encoding 80).txn.k = (80 : Fin 81).castSucc := by decide

theorem witness_ConvStepStopsPastTheLastInput : (encoding 81).txn.k = 81 := rfl

theorem witness_CodewordIsLinear :
    ({ Txn.idle with input := Vector.ofFn fun i : Fin 81 => decide (i.val ≤ 1) } : Txn).input =
        Vector.zipWith xor (single 81 0) (single 81 1) ∧
      (∀ i : Fin 81, (single 81 0).get i = decide (i = 0)) ∧ ∀ i : Fin 81, (single 81 80).get i = decide (i = 80) := by
  decide +kernel

/-- Inputs that agree in the span of step 40 and differ before and after it; and inputs that differ at one end of the span
of step 31 and nowhere else. -/
theorem witness_ConstraintLengthIsThirtyTwo :
    (∀ i : Fin 81, i.val ≤ (40 : Fin 81).val → (40 : Fin 81).val ≤ i.val + 31 →
      (single 81 8).get i = (single 81 41).get i) ∧
    (∀ m ∈ [(0 : Fin 81), 31], (m = (31 : Fin 81) ∨ m.val + 31 = (31 : Fin 81).val) ∧
      ∀ i : Fin 81, ((single 81 m.val).get i = (Vector.replicate 81 false).get i) ↔ i ≠ m) := by decide +kernel

theorem valid_vx1 : ValidRequest vx1 :=
  ⟨⟨text [0x4B], 0x31, text [0x41, 0x42, 0x43], by simp only [CallsignShape]; decide⟩,
    ⟨0x46, 0x4E, 0x34, 0x32, rfl, rfl, rfl, rfl, rfl⟩, by decide, by decide⟩

theorem witness_EncodeReportsTheFirstError :
    ¬ValidCallsign .firstDigit [] ∧ (ValidCallsign .firstDigit vx1.callsign ∧ ¬ValidLocator []) ∧
      (ValidLocator vx1.locator ∧ ¬ValidPower 61 ∧ ¬ValidPower (-1)) ∧ ValidRequest vx1 := by
  refine ⟨?_, ⟨valid_vx1.1, ?_⟩, ⟨valid_vx1.2.1, ?_, ?_⟩, valid_vx1⟩
  · rintro ⟨front, d, tail, h, -⟩
    cases front <;> cases h
  · rintro ⟨g0, g1, g2, g3, h, -⟩
    cases h
  · exact fun h => absurd h.2 (by decide)
  · exact fun h => absurd h.1 (by decide)

theorem witness_EncodeMeetsTheStageRules : ValidRequest vx1 := valid_vx1

/-- One request, and storage that differs in every other field of interest. -/
theorem witness_EncodeDependsOnTheRequestAlone :
    (Txn.start vx1).request =
      ({ Txn.start vx1 with sr := 1, k := 81, codeword := Vector.replicate 162 true } : Txn).request := rfl

/-- Powers 37 and 38 round to one step, so their requests get the same symbols. -/
theorem witness_EqualSymbolsMeanEqualMessages :
    encodeRequest hardware vx1 = .ok vx1Symbols ∧ encodeRequest hardware { vx1 with power := 38 } = .ok vx1Symbols :=
  ⟨test_encode_vx1, by decide +kernel⟩

theorem witness_StagedFormGivesTheAtomicResult :
    stagedIdle.Idle ∧ stagedIdle.stepping = .staged ∧ stagedIdle.requests = vx1 :: [] :=
  witness_StagedTransactionStartsCleared

/-- The state one step after the small-step form has taken its request. -/
def begun : State := State.begin { stagedIdle with requests := [] } vx1

theorem coherent_begun : begun.Coherent := .inr (.inl ⟨rfl, rfl⟩)

theorem witness_StepKeepsCoherence :
    stagedIdle.Coherent ∧ step stagedIdle = .next begun ∧ begun.Coherent ∧ ∃ t, step begun = .next t :=
  ⟨.inl ⟨rfl, rfl⟩, rfl, coherent_begun, ⟨_, rfl⟩⟩

theorem witness_StepKeepsSyncCarried :
    State.SyncCarried (State.reset.issue vx1) ∧ ∃ t, step (State.reset.issue vx1) = .next t :=
  ⟨fun _ h => absurd h (List.not_mem_nil), ⟨_, rfl⟩⟩

theorem witness_EachRequestIsAnsweredOnce : stagedIdle.Coherent ∧ step stagedIdle = .next begun :=
  ⟨.inl ⟨rfl, rfl⟩, rfl⟩

theorem witness_TransactionsEnd : begun.Coherent ∧ ¬begun.Idle :=
  ⟨coherent_begun, fun h => absurd h.1 (by decide)⟩

theorem witness_IssuingDisturbsNoStep :
    (finished.txn.stage = .done ∧ ∃ t, step finished = .next t) ∧ (begun.op ≠ 0 ∧ ∃ t, step begun = .next t) ∧
      stagedIdle.requests ≠ [] ∧ ∃ t, step stagedIdle = .next t :=
  ⟨⟨rfl, _, rfl⟩, ⟨by decide, _, rfl⟩, by decide, _, rfl⟩

/-- Each packing stage with a next state, by a raise and by success. -/
theorem witness_PackingStagesFrame :
    (∀ i ∈ [Instr.packCallsign, .packLocator, .packPower], ∃ t, exec i begun = .next t ∧ t.txn.stage = .pack) ∧
      ∀ i ∈ [Instr.packCallsign, .packLocator, .packPower],
        ∃ t, exec i (request ⟨[], [], 61⟩) = .next t ∧ t.txn.stage = .done := by
  simp only [List.forall_mem_cons, List.not_mem_nil, false_implies, implies_true, and_true]
  exact ⟨⟨⟨_, rfl, by decide +kernel⟩, ⟨_, rfl, by decide +kernel⟩, ⟨_, rfl, by decide +kernel⟩⟩,
    ⟨_, rfl, by decide +kernel⟩, ⟨_, rfl, by decide +kernel⟩, ⟨_, rfl, by decide +kernel⟩⟩

theorem witness_LaterStagesFrame :
    (∃ t, exec .assemble begun = .next t) ∧ (∃ t, exec .convStep begun = .next t) ∧
      (∃ t, exec .convEncode begun = .next t) ∧ (∃ t, exec .interleave begun = .next t) ∧
      ∃ t, exec .mergeSync begun = .next t := ⟨⟨_, rfl⟩, ⟨_, rfl⟩, ⟨_, rfl⟩, ⟨_, rfl⟩, ⟨_, rfl⟩⟩

theorem witness_EncodeFrame : ∃ t, exec (.encode vx1) State.reset = .next t := ⟨_, rfl⟩

end Sys2Proof.Tests
end

/-! PROOFS. Family 30: the message word (R49), the octet classes and character codes (R44, R45) and the output
lines (R43). -/

namespace Sys2Proof.Machine

/-! ### The message word -/

/-- `W` as a sum: no field carries into the next (R49). -/
theorem messageWord_toNat (n : BitVec 28) (l : BitVec 15) (q : BitVec 7) :
    (messageWord n l q).toNat = n.toNat * 2 ^ 22 + l.toNat * 2 ^ 7 + q.toNat := by
  rw [messageWord, BitVec.toNat_append, BitVec.toNat_append, ← Nat.shiftLeft_add_eq_or_of_lt l.isLt,
    ← Nat.shiftLeft_add_eq_or_of_lt q.isLt, Nat.shiftLeft_eq, Nat.shiftLeft_eq]
  omega

/-- `W[49:22] = N` (R49). -/
theorem messageWord_slice_callsign (n : BitVec 28) (l : BitVec 15) (q : BitVec 7) :
    (messageWord n l q).extractLsb' 22 28 = n := by
  rw [messageWord, BitVec.extractLsb'_append_eq_of_le (by decide)]
  exact BitVec.extractLsb'_append_eq_left

/-- `W[21:7] = L` (R49). -/
theorem messageWord_slice_locator (n : BitVec 28) (l : BitVec 15) (q : BitVec 7) :
    (messageWord n l q).extractLsb' 7 15 = l := by
  rw [messageWord, BitVec.extractLsb'_append_eq_of_le (by decide)]
  exact BitVec.extractLsb'_append_eq_right

/-- `W[6:0] = P` (R49). -/
theorem messageWord_slice_power (n : BitVec 28) (l : BitVec 15) (q : BitVec 7) :
    (messageWord n l q).extractLsb' 0 7 = q :=
  BitVec.extractLsb'_append_eq_right

/-- Settles O32, slice by slice. -/
theorem wordIsTheConcatenation : Obligations.WordIsTheConcatenation := fun n l q =>
  ⟨rfl, messageWord_slice_callsign n l q, messageWord_slice_locator n l q, messageWord_slice_power n l q,
    messageWord_toNat n l q⟩

/-! ### Octets and their codes -/

/-- The digits by their range (R44). -/
theorem isDigit_iff (b : Octet) : isDigit b = true ↔ 0x30 ≤ b.toNat ∧ b.toNat ≤ 0x39 := by
  rw [isDigit, beq_iff_eq, octetClass]
  split_ifs <;> simp only [true_iff, false_iff] <;> omega

/-- The capital letters by their range: `locLetter` and `upperOnly` meet at 0x52 and 0x53 (R44). -/
theorem isUpper_iff (b : Octet) : isUpper b = true ↔ 0x41 ≤ b.toNat ∧ b.toNat ≤ 0x5A := by
  rw [isUpper, Bool.or_eq_true, beq_iff_eq, beq_iff_eq, octetClass]
  split_ifs <;> simp only [or_true, true_or, or_self, true_iff, false_iff] <;> omega

/-- No octet is a digit and a capital letter (R44). -/
theorem isDigit_eq_false_of_isUpper {b : Octet} (h : isUpper b = true) : isDigit b = false := by
  rw [← Bool.not_eq_true, isDigit_iff]
  rw [isUpper_iff] at h
  omega

/-- The code of a digit (R45). -/
theorem code_of_isDigit {b : Octet} (h : isDigit b = true) : code b = b.toNat - 0x30 := by
  rw [code, if_pos h]

/-- The code of a capital letter (R45). -/
theorem code_of_isUpper {b : Octet} (h : isUpper b = true) : code b = b.toNat - 0x41 + 10 := by
  rw [code, isDigit_eq_false_of_isUpper h, h]
  rfl

/-- Every octet of the normalized callsign is one of the callsign's or the padding space (R60). -/
theorem normalize_get_mem (pad : Nat) (s : List Octet) (i : Fin 6) :
    (normalize pad s).get i ∈ s ∨ (normalize pad s).get i = space := by
  rw [normalize_get]
  by_cases h : i.val < (List.replicate pad space ++ s).length
  · rw [List.getD_eq_getElem _ _ h]
    obtain hpad | hs := List.mem_append.mp (List.getElem_mem h)
    · exact .inr (List.eq_of_mem_replicate hpad)
    · exact .inl hs
  · exact .inr (List.getD_eq_default _ _ (Nat.le_of_not_lt h))

/-- An accepted `CALL6` holds digits, capital letters and padding spaces only: R58 has checked the callsign's own
octets, and R60 adds nothing but spaces. -/
theorem callsignField_alphabet {scan : DigitScan} {s : List Octet} {call6 : Vector Octet 6} {n : BitVec 28}
    (h : callsignField scan s = .ok (call6, n)) (i : Fin 6) :
    isDigit (call6.get i) = true ∨ isUpper (call6.get i) = true ∨ call6.get i = space := by
  obtain ⟨-, -, hall, d, -, -, -, rfl, -⟩ := callsignField_ok.mp h
  obtain hs | hspace := normalize_get_mem (2 - d) s i
  · have hchar := List.all_eq_true.mp hall _ hs
    rw [Bool.or_eq_true] at hchar
    exact hchar.imp_right .inl
  · exact .inr (.inr hspace)

/-- Settles O14: the codes from the ranges of R44, the alphabet from the checks of an accepted callsign. -/
theorem characterCodes : Obligations.CharacterCodes := by
  refine ⟨fun b => ⟨fun h => ?_, fun h => ?_⟩, rfl, fun _ _ _ _ h => callsignField_alphabet h⟩
  · have hrange := (isDigit_iff b).mp h
    have hcode := code_of_isDigit h
    omega
  · have hrange := (isUpper_iff b).mp h
    have hcode := code_of_isUpper h
    omega

/-! ### The output lines -/

/-- What a host reads from the lines of a response is the response; with an error it does not look at the symbol
lines (R43, R117). -/
theorem Response.read_toPort (n : Nat) (r : Response) : (r.toPort n).read = r := by
  cases r with
  | ok symbols =>
    have hread : Vector.ofFn (symbolAt (symbolsWord symbols)) = symbols := by
      ext i hi
      rw [Vector.getElem_ofFn, symbolAt_symbolsWord, Vector.get_eq_getElem]
    exact congrArg Response.ok hread
  | err e => cases e <;> rfl

/-- Bit `2i` of the symbol word is the low bit of symbol `i` (R43). -/
theorem symbolsWord_lowBit (symbols : Vector Symbol 162) (i : Fin 162) :
    (symbolsWord symbols).getLsbD (2 * i.val) = decide ((symbols.get i).val % 2 = 1) := by
  rw [BitVec.getLsbD, Nat.testBit_eq_decide_div_mod_eq, ← symbolsWord_field symbols i,
    Nat.mod_mod_of_dvd _ (by decide)]

/-- Bit `2i+1` of the symbol word is the high bit of symbol `i` (R43). -/
theorem symbolsWord_highBit (symbols : Vector Symbol 162) (i : Fin 162) :
    (symbolsWord symbols).getLsbD (2 * i.val + 1) = decide (2 ≤ (symbols.get i).val) := by
  rw [BitVec.getLsbD, Nat.testBit_eq_decide_div_mod_eq, ← symbolsWord_field symbols i, pow_succ,
    ← Nat.div_div_eq_div_mul, decide_eq_decide]
  omega

/-- Settles O5: the read back by the form of the response, the two bits of a symbol from its field of the symbol
word. -/
theorem responsePortRoundTrip : Obligations.ResponsePortRoundTrip :=
  ⟨Response.read_toPort, fun _ _ => ⟨rfl, rfl, rfl, rfl⟩,
    fun _ symbols i => ⟨symbolsWord_lowBit symbols i, symbolsWord_highBit symbols i⟩⟩

end Sys2Proof.Machine

/-! PROOFS. Family 40: the packing stages PACK_CALLSIGN, PACK_LOCATOR and PACK_POWER (R56..R76). -/

namespace Sys2Proof.Machine

/-- A bit vector of a number that fits holds that number. -/
theorem toNat_ofNat_of_lt {w x : Nat} (h : x < 2 ^ w) : (BitVec.ofNat w x).toNat = x := by
  rw [BitVec.toNat_ofNat, Nat.mod_eq_of_lt h]

/-! ### What a packing stage does, by what its field function gives -/

/-- Where the callsign packs, PACK_CALLSIGN writes `CALL6` and `N` and nothing else (R56). -/
theorem exec_packCallsign_of_ok {s : State} {call6 : Vector Octet 6} {n : BitVec 28}
    (h : callsignField .firstDigit s.txn.request.callsign = .ok (call6, n)) :
    exec .packCallsign s = .next { s with txn := { s.txn with call6 := call6, nField := n } } := by
  obtain ⟨c, m, hok, hexec⟩ | ⟨⟨e, herr⟩, -⟩ := execPackCallsign_cases s
  · cases hok.symm.trans h
    exact hexec
  · cases herr.symm.trans h

/-- Where the callsign does not pack, PACK_CALLSIGN raises InvalidCallsign (R56). -/
theorem exec_packCallsign_of_not_ok {s : State}
    (h : ∀ field, callsignField .firstDigit s.txn.request.callsign ≠ .ok field) :
    exec .packCallsign s = .next (s.raise .invalidCallsign) := by
  obtain ⟨c, m, hok, -⟩ | ⟨-, hexec⟩ := execPackCallsign_cases s
  · exact absurd hok (h _)
  · exact hexec

/-- Where the locator packs, PACK_LOCATOR writes `L` and nothing else (R65). -/
theorem exec_packLocator_of_ok {s : State} {l : BitVec 15} (h : locatorField s.txn.request.locator = .ok l) :
    exec .packLocator s = .next { s with txn := { s.txn with lField := l } } := by
  obtain ⟨l', hok, hexec⟩ | ⟨⟨e, herr⟩, -⟩ := execPackLocator_cases s
  · cases hok.symm.trans h
    exact hexec
  · cases herr.symm.trans h

/-- Where the locator does not pack, PACK_LOCATOR raises InvalidGrid (R65). -/
theorem exec_packLocator_of_not_ok {s : State} (h : ∀ l, locatorField s.txn.request.locator ≠ .ok l) :
    exec .packLocator s = .next (s.raise .invalidGrid) := by
  obtain ⟨l, hok, -⟩ | ⟨-, hexec⟩ := execPackLocator_cases s
  · exact absurd hok (h l)
  · exact hexec

/-- Where the power packs, PACK_POWER writes `P` and nothing else (R70). -/
theorem exec_packPower_of_ok {s : State} {q : BitVec 7} (h : powerField s.txn.request.power = .ok q) :
    exec .packPower s = .next { s with txn := { s.txn with pField := q } } := by
  obtain ⟨q', hok, hexec⟩ | ⟨⟨e, herr⟩, -⟩ := execPackPower_cases s
  · cases hok.symm.trans h
    exact hexec
  · cases herr.symm.trans h

/-- Where the power does not pack, PACK_POWER raises InvalidPower (R70). -/
theorem exec_packPower_of_not_ok {s : State} (h : ∀ q, powerField s.txn.request.power ≠ .ok q) :
    exec .packPower s = .next (s.raise .invalidPower) := by
  obtain ⟨q, hok, -⟩ | ⟨-, hexec⟩ := execPackPower_cases s
  · exact absurd hok (h q)
  · exact hexec

/-- Settles O30: each stage's outcome is a function of its own text or number, and `W` is a sum whose low two parts take
22 bits. -/
theorem fieldsAreIndependent : Obligations.FieldsAreIndependent := by
  refine ⟨fun s t h => ?_, fun s t h => ?_, fun s t h => ?_, fun n l q => ⟨?_, messageWord_slice_locator n l q⟩⟩
  · obtain ⟨call6, n, hok, hs⟩ | ⟨⟨e, herr⟩, hs⟩ := execPackCallsign_cases s
    · exact .inl ⟨call6, n, hs, exec_packCallsign_of_ok (h ▸ hok)⟩
    · have ht : exec .packCallsign t = .next (t.raise .invalidCallsign) :=
        exec_packCallsign_of_not_ok fun field hok => nomatch herr.symm.trans ((congrArg _ h).trans hok)
      exact .inr ⟨_, _, hs, ht, rfl, rfl, rfl, rfl⟩
  · obtain ⟨q, hok, hs⟩ | ⟨⟨e, herr⟩, hs⟩ := execPackPower_cases s
    · exact .inl ⟨q, hs, exec_packPower_of_ok (h ▸ hok)⟩
    · exact .inr ⟨hs, exec_packPower_of_not_ok fun q hok => nomatch herr.symm.trans ((congrArg _ h).trans hok)⟩
  · obtain ⟨l, hok, hs⟩ | ⟨⟨e, herr⟩, hs⟩ := execPackLocator_cases s
    · exact .inl ⟨l, hs, exec_packLocator_of_ok (h ▸ hok)⟩
    · exact .inr ⟨hs, exec_packLocator_of_not_ok fun l hok => nomatch herr.symm.trans ((congrArg _ h).trans hok)⟩
  · rw [messageWord_toNat]
    omega

/-! ### The power -/

/-- Settles O27, by evaluating the table and the filter. -/
theorem powerStepTableIsTheScale : Obligations.PowerStepTableIsTheScale :=
  ⟨rfl, by decide +kernel⟩

/-- The entries of `PSTEP` are the values of the power scale (R72). -/
theorem mem_pstepTable_iff (v : Nat) : v ∈ pstepTable.toList.map BitVec.toNat ↔ IsPowerStep v := by
  rw [powerStepTableIsTheScale.2, List.mem_filter, List.mem_range, decide_eq_true_eq, IsPowerStep, Nat.lt_succ_iff]

/-- The later of two values of an increasing list that is not above `power`: one turn of the search in `powerStep`. -/
def laterNotAbove (power : Int) (best v : Nat) : Nat := if (v : Int) ≤ power then v else best

/-- `powerStep` is a search through the values of the table (R73). -/
theorem powerStep_eq_foldl (power : Int) :
    powerStep power = (pstepTable.toList.map BitVec.toNat).foldl (laterNotAbove power) 0 := by
  rw [powerStep, List.foldl_map]
  rfl

/-- The search keeps what it started with or finds a list value, in either case one not above `power`. -/
theorem foldl_laterNotAbove_mem {power : Int} (values : List Nat) {best : Nat} (hbest : (best : Int) ≤ power) :
    (values.foldl (laterNotAbove power) best = best ∨ values.foldl (laterNotAbove power) best ∈ values) ∧
      ((values.foldl (laterNotAbove power) best : Nat) : Int) ≤ power := by
  induction values generalizing best with
  | nil => exact ⟨.inl rfl, hbest⟩
  | cons v values ih =>
    rw [List.foldl_cons, laterNotAbove]
    split_ifs with hv
    · obtain ⟨hmem, hle⟩ := ih hv
      exact ⟨.inr (List.mem_cons.mpr hmem), hle⟩
    · obtain ⟨hmem, hle⟩ := ih hbest
      exact ⟨hmem.imp_right (List.mem_cons_of_mem v), hle⟩

/-- In an increasing list the search ends at or above every list value that is not above `power`. -/
theorem le_foldl_laterNotAbove {power : Int} {values : List Nat} {best : Nat}
    (hsorted : (best :: values).Pairwise (· ≤ ·)) :
    ∀ v ∈ best :: values, (v : Int) ≤ power → v ≤ values.foldl (laterNotAbove power) best := by
  induction values generalizing best with
  | nil => exact fun v hv _ => (List.mem_singleton.mp hv).le
  | cons w values ih =>
    obtain ⟨hhead, htail⟩ := List.pairwise_cons.mp hsorted
    have hbestw : best ≤ w := hhead w List.mem_cons_self
    intro v hv hle
    rw [List.foldl_cons, laterNotAbove]
    split_ifs with hw
    · obtain rfl | hv := List.mem_cons.mp hv
      · exact hbestw.trans (ih htail w List.mem_cons_self hw)
      · exact ih htail v hv hle
    · refine ih (List.pairwise_cons.mpr ⟨fun u hu => hhead u (List.mem_cons_of_mem w hu), htail.of_cons⟩) v ?_ hle
      have hne : v ≠ w := fun h => hw (h ▸ hle)
      simpa [hne] using hv

/-- The chosen step is the largest value of the scale not above the power (R73). -/
theorem powerStep_roundsTo {power : Int} (hpower : 0 ≤ power) : RoundsTo power (powerStep power) := by
  have hsorted : (0 :: pstepTable.toList.map BitVec.toNat).Pairwise (· ≤ ·) := by decide +kernel
  obtain ⟨hmem, hle⟩ := foldl_laterNotAbove_mem (pstepTable.toList.map BitVec.toNat) (best := 0) hpower
  rw [← powerStep_eq_foldl] at hmem hle
  refine ⟨?_, hle, fun v hv hvle => ?_⟩
  · obtain hzero | hmem := hmem
    · rw [hzero]
      exact ⟨by decide, .inl rfl⟩
    · exact (mem_pstepTable_iff _).mp hmem
  · rw [powerStep_eq_foldl]
    exact le_foldl_laterNotAbove hsorted v (List.mem_cons_of_mem 0 ((mem_pstepTable_iff v).mpr hv)) hvle

/-- A valid power packs to its step plus 64, which 7 bits hold (R74). -/
theorem powerField_of_valid {power : Int} (hpower : ValidPower power) :
    ∃ q, powerField power = .ok q ∧ q.toNat = powerStep power + 64 ∧ powerStep power ≤ 60 := by
  obtain ⟨⟨hle, -⟩, -, -⟩ := powerStep_roundsTo hpower.1
  exact ⟨_, powerField_ok.mpr ⟨hpower, rfl⟩, toNat_ofNat_of_lt (by omega), hle⟩

/-- An invalid power makes PACK_POWER raise InvalidPower (R71). -/
theorem exec_packPower_of_invalid {s : State} (h : ¬ValidPower s.txn.request.power) :
    exec .packPower s = .next (s.raise .invalidPower) :=
  exec_packPower_of_not_ok fun _ hok => h (powerField_ok.mp hok).1

/-- Settles O26: a power outside 0..60 is no valid power, whatever port it came from. -/
theorem powerRangeChecked : Obligations.PowerRangeChecked := by
  have hrange : ∀ s : State, (s.txn.request.power < 0 ∨ 60 < s.txn.request.power) →
      exec .packPower s = .next (s.raise .invalidPower) := fun s h =>
    exec_packPower_of_invalid fun ⟨hlow, hhigh⟩ => by omega
  exact ⟨hrange, fun width lines s hport h => hrange s (hport ▸ h)⟩

/-- Settles O28: the step of R73, plus 64. -/
theorem packPowerCompletes : Obligations.PackPowerCompletes := by
  intro s hlow hhigh
  obtain ⟨q, hok, hq, -⟩ := powerField_of_valid ⟨hlow, hhigh⟩
  exact ⟨_, q, powerStep_roundsTo hlow, hq, exec_packPower_of_ok hok⟩

/-- Settles O29: 64 is added to a step of at most 60, so bit 6 is set. -/
theorem powerFieldRange : Obligations.PowerFieldRange := by
  intro power hlow hhigh
  obtain ⟨q, hok, hq, hstep⟩ := powerField_of_valid ⟨hlow, hhigh⟩
  refine ⟨q, hok, by omega, by omega, ?_⟩
  rw [BitVec.getLsbD, Nat.testBit_eq_decide_div_mod_eq, decide_eq_true_eq]
  omega

/-! ### The locator -/

/-- The capital letters A..R by their range (R44). -/
theorem isLocLetter_iff (b : Octet) : isLocLetter b = true ↔ 0x41 ≤ b.toNat ∧ b.toNat ≤ 0x52 := by
  rw [isLocLetter, beq_iff_eq, octetClass]
  split_ifs <;> simp only [true_iff, false_iff] <;> omega

/-- The locator text of two letter indices and two digits (R67, R68). -/
def locatorText (l0 l1 d0 d1 : Nat) : List Octet :=
  [BitVec.ofNat 8 (0x41 + l0), BitVec.ofNat 8 (0x41 + l1), BitVec.ofNat 8 (0x30 + d0), BitVec.ofNat 8 (0x30 + d1)]

/-- An octet is the one of its value. -/
theorem octet_eq_ofNat {b : Octet} {base i : Nat} (h : b.toNat = base + i) : b = BitVec.ofNat 8 (base + i) := by
  rw [← h, BitVec.ofNat_toNat, BitVec.setWidth_eq]

/-- The locators that pack, by their letter indices and digits, and their `L` over the integers (R65..R68). -/
theorem locatorField_ok_iff_text {g : List Octet} {l : BitVec 15} :
    locatorField g = .ok l ↔ ∃ l0 l1 d0 d1, l0 < 18 ∧ l1 < 18 ∧ d0 < 10 ∧ d1 < 10 ∧ g = locatorText l0 l1 d0 d1 ∧
      (l.toNat : Int) = (179 - (10 * l0 + d0)) * 180 + (10 * l1 + d1) := by
  rw [locatorField_ok]
  constructor
  · rintro ⟨g0, g1, g2, g3, rfl, h0, h1, h2, h3, rfl⟩
    rw [isLocLetter_iff] at h0 h1
    rw [isDigit_iff] at h2 h3
    refine ⟨g0.toNat - 0x41, g1.toNat - 0x41, g2.toNat - 0x30, g3.toNat - 0x30, by omega, by omega, by omega, by omega,
      ?_, ?_⟩
    · rw [locatorText, ← octet_eq_ofNat, ← octet_eq_ofNat, ← octet_eq_ofNat, ← octet_eq_ofNat] <;> omega
    · rw [BitVec.toNat_ofNat, locatorPack]
      omega
  · rintro ⟨l0, l1, d0, d1, hl0, hl1, hd0, hd1, rfl, hl⟩
    have h0 : (BitVec.ofNat 8 (0x41 + l0)).toNat = 0x41 + l0 := toNat_ofNat_of_lt (by omega)
    have h1 : (BitVec.ofNat 8 (0x41 + l1)).toNat = 0x41 + l1 := toNat_ofNat_of_lt (by omega)
    have h2 : (BitVec.ofNat 8 (0x30 + d0)).toNat = 0x30 + d0 := toNat_ofNat_of_lt (by omega)
    have h3 : (BitVec.ofNat 8 (0x30 + d1)).toNat = 0x30 + d1 := toNat_ofNat_of_lt (by omega)
    refine ⟨_, _, _, _, rfl, (isLocLetter_iff _).mpr (by omega), (isLocLetter_iff _).mpr (by omega),
      (isDigit_iff _).mpr (by omega), (isDigit_iff _).mpr (by omega), BitVec.eq_of_toNat_eq ?_⟩
    rw [BitVec.toNat_ofNat, locatorPack, h0, h1, h2, h3]
    omega

/-- Settles O23: a locator that packs has four octets, each in its class. -/
theorem locatorLengthAndClassesChecked : Obligations.LocatorLengthAndClassesChecked := by
  refine ⟨fun s hlen => exec_packLocator_of_not_ok fun l hok => ?_,
    fun s g0 g1 g2 g3 hg hbad => exec_packLocator_of_not_ok fun l hok => ?_⟩
  · obtain ⟨_, _, _, _, hg, -⟩ := locatorField_ok.mp hok
    exact hlen (congrArg List.length hg)
  · obtain ⟨_, _, _, _, hg', h0, h1, h2, h3, -⟩ := locatorField_ok.mp hok
    cases hg.symm.trans hg'
    simp [h0, h1, h2, h3] at hbad

/-- Settles O24: the field of the text of two letter indices and two digits. -/
theorem packLocatorCompletes : Obligations.PackLocatorCompletes := by
  intro s l0 l1 d0 d1 hl0 hl1 hd0 hd1 hg
  have hl : ((BitVec.ofNat 15 ((179 - (10 * l0 + d0)) * 180 + (10 * l1 + d1))).toNat : Int) =
      (179 - (10 * l0 + d0)) * 180 + (10 * l1 + d1) := by
    rw [BitVec.toNat_ofNat]
    omega
  exact ⟨_, hl, exec_packLocator_of_ok (locatorField_ok_iff_text.mpr ⟨l0, l1, d0, d1, hl0, hl1, hd0, hd1, hg, hl⟩)⟩

/-- Settles O25: `v / 180` and `v % 180` are the inverted longitude index and the latitude index, and their decimal
digits are the locator's letters and digits. -/
theorem locatorFieldIsABijection : Obligations.LocatorFieldIsABijection := by
  refine ⟨fun g l hok => ?_, fun v hv =>
    ⟨locatorText ((179 - v / 180) / 10) (v % 180 / 10) ((179 - v / 180) % 10) (v % 180 % 10), ?_, fun g hok => ?_⟩⟩
  · obtain ⟨l0, l1, d0, d1, hl0, hl1, hd0, hd1, -, hl⟩ := locatorField_ok_iff_text.mp hok
    omega
  · refine locatorField_ok_iff_text.mpr ⟨_, _, _, _, by omega, by omega, by omega, by omega, rfl, ?_⟩
    rw [BitVec.toNat_ofNat]
    omega
  · obtain ⟨l0, l1, d0, d1, hl0, hl1, hd0, hd1, rfl, hl⟩ := locatorField_ok_iff_text.mp hok
    rw [BitVec.toNat_ofNat] at hl
    congr 1 <;> omega

/-! ### The octets of the normalized callsign -/

/-- A letter or digit has a code of 0..35 (R45). -/
theorem code_le_of_isAlnum {b : Octet} (h : isAlnum b = true) : code b ≤ 35 := by
  obtain hdigit | hupper := Bool.or_eq_true_iff.mp h
  · have hrange := (isDigit_iff b).mp hdigit
    have hcode := code_of_isDigit hdigit
    omega
  · have hrange := (isUpper_iff b).mp hupper
    have hcode := code_of_isUpper hupper
    omega

/-- A digit has a code of 0..9 (R45). -/
theorem code_le_of_isDigit {b : Octet} (h : isDigit b = true) : code b ≤ 9 := by
  have hrange := (isDigit_iff b).mp h
  have hcode := code_of_isDigit h
  omega

/-- A capital letter has a code of 10..35 (R45). -/
theorem code_bounds_of_isUpper {b : Octet} (h : isUpper b = true) : 10 ≤ code b ∧ code b ≤ 35 := by
  have hrange := (isUpper_iff b).mp h
  have hcode := code_of_isUpper h
  omega

/-- A capital letter or the padding space has a code of 10..36 (R45). -/
theorem code_bounds_of_trailing {b : Octet} (h : isUpper b = true ∨ b = space) : 10 ≤ code b ∧ code b ≤ 36 := by
  obtain hupper | rfl := h
  · have hcode := code_bounds_of_isUpper hupper
    omega
  · decide

/-- The padding space is no letter or digit. -/
theorem isAlnum_ne_space {b : Octet} (h : isAlnum b = true) : b ≠ space := by
  rintro rfl
  exact absurd h (by decide)

/-- From index 2 on the normalized callsign holds the digit and the tail, then spaces (R60). -/
theorem normalize_get_of_le (front : List Octet) (d : Octet) (tail : List Octet) (hfront : front.length ≤ 2) (i : Fin 6)
    (hi : 2 ≤ i.val) :
    (normalize (2 - front.length) (front ++ d :: tail)).get i = (d :: tail).getD (i.val - 2) space := by
  have hlen : (List.replicate (2 - front.length) space ++ front).length = 2 := by
    rw [List.length_append, List.length_replicate]
    omega
  rw [normalize_get, ← List.append_assoc, List.getD_append_right _ _ _ _ (by omega), hlen]

/-- From index 3 on the normalized callsign holds the tail, then spaces (R60). -/
theorem normalize_get_tail (front : List Octet) (d : Octet) (tail : List Octet) (hfront : front.length ≤ 2) (i : Fin 6)
    (hi : 3 ≤ i.val) :
    (normalize (2 - front.length) (front ++ d :: tail)).get i = tail.getD (i.val - 3) space := by
  have hindex : i.val - 2 = (i.val - 3) + 1 := by omega
  rw [normalize_get_of_le front d tail hfront i (by omega), hindex, List.getD_cons_succ]

/-- An octet of a tail of letters, or a space behind it. -/
theorem getD_tail_upper_or_space {tail : List Octet} (h : tail.all isUpper = true) (j : Nat) :
    isUpper (tail.getD j space) = true ∨ tail.getD j space = space := by
  by_cases hj : j < tail.length
  · rw [List.getD_eq_getElem _ _ hj]
    exact .inl (List.all_eq_true.mp h _ (List.getElem_mem hj))
  · exact .inr (List.getD_eq_default _ _ (Nat.le_of_not_lt hj))

/-- The mixed-radix code by the octets `CALL6[0..5]` (R63). -/
theorem callPack_eq_get (call6 : Vector Octet 6) :
    callPack call6 = ((((code (call6.get 0) * 36 + code (call6.get 1)) * 10 + code (call6.get 2)) * 27 +
      (code (call6.get 3) - 10)) * 27 + (code (call6.get 4) - 10)) * 27 + (code (call6.get 5) - 10) := rfl

/-! ### The callsigns that pack are those of the pattern -/

section
variable {scan : DigitScan} {s front tail : List Octet} {d : Octet}

/-- In front of the digit stand one letter or digit, with two letters behind it at least, or two letters or digits, of
which `FIRST_DIGIT` needs the second to be no digit (R57, R59). -/
theorem CallsignShape.front_cases (h : CallsignShape scan s front d tail) :
    (∃ b, front = [b] ∧ isAlnum b = true ∧ 2 ≤ tail.length) ∨
      ∃ b0 b1, front = [b0, b1] ∧ isAlnum b0 = true ∧ isAlnum b1 = true ∧
        (scan = .firstDigit → isDigit b1 = false) := by
  obtain ⟨rfl, hlen, hfront, halnum, -, -, -, -, hscan⟩ := h
  match front, hfront with
  | [b], _ =>
    refine .inl ⟨b, rfl, by simpa using halnum, ?_⟩
    simp only [List.length_append, List.length_cons, List.length_nil] at hlen
    omega
  | [b0, b1], _ =>
    simp only [List.all_cons, List.all_nil, Bool.and_true, Bool.and_eq_true] at halnum
    exact .inr ⟨b0, b1, rfl, halnum.1, halnum.2, hscan⟩

/-- The scan finds the digit of the pattern, right behind the front (R59). -/
theorem CallsignShape.digitPos_eq (h : CallsignShape scan s front d tail) : digitPos scan s = some front.length := by
  obtain ⟨rfl, -, -, -, hd, htail, -, hupper, -⟩ := id h
  obtain ⟨b, rfl, -, -⟩ | ⟨b0, b1, rfl, -, -, hb1⟩ := h.front_cases
  · obtain ⟨c, rest, rfl⟩ := List.exists_cons_of_length_pos htail
    have hc : isDigit c = false := isDigit_eq_false_of_isUpper (List.all_eq_true.mp hupper c List.mem_cons_self)
    cases scan <;> simp [digitPos, digitAt, hd, hc]
  · cases scan with
    | firstDigit => simp [digitPos, digitAt, hd, hb1 rfl]
    | index2First => simp [digitPos, digitAt, hd]

/-- A callsign of the pattern passes every check (R56). -/
theorem CallsignShape.callsignField_eq (h : CallsignShape scan s front d tail) :
    callsignField scan s = .ok (normalize (2 - front.length) s,
      BitVec.ofNat 28 (callPack (normalize (2 - front.length) s))) := by
  have hpos := h.digitPos_eq
  obtain ⟨rfl, hlen, hfront, halnum, hd, -, htail, hupper, -⟩ := h
  have hlength : (front ++ d :: tail).length = front.length + tail.length + 1 := by
    rw [List.length_append, List.length_cons]
    omega
  have hall : ((front ++ d :: tail).all fun b => isDigit b || isUpper b) = true := by
    simp only [List.all_append, List.all_cons, Bool.and_eq_true]
    refine ⟨halnum, by rw [hd]; rfl, List.all_eq_true.mpr fun b hb => ?_⟩
    rw [List.all_eq_true.mp hupper b hb, Bool.or_true]
  refine callsignField_ok.mpr ⟨hlen, by omega, hall, _, hpos, by omega, (trailingOk_iff _).mpr fun i hi => ?_, rfl, rfl⟩
  rw [normalize_get_tail front d tail (by omega) i hi]
  exact getD_tail_upper_or_space hupper _

end

/-- A tail of letters and digits that passes the check of R61 has letters only: its octets stand from index 3
on. -/
theorem tail_all_isUpper {front tail : List Octet} {d : Octet} (hfront : front.length ≤ 2) (htail : tail.length ≤ 3)
    (halnum : tail.all isAlnum = true) (hok : trailingOk (normalize (2 - front.length) (front ++ d :: tail)) = true) :
    tail.all isUpper = true := by
  refine List.all_eq_true.mpr fun b hb => ?_
  have hspace := isAlnum_ne_space (List.all_eq_true.mp halnum b hb)
  obtain ⟨j, hj, rfl⟩ := List.mem_iff_getElem.mp hb
  have hclass := (trailingOk_iff _).mp hok ⟨j + 3, by omega⟩ (Nat.le_add_left 3 j)
  rw [normalize_get_tail front d tail hfront _ (Nat.le_add_left 3 j), Nat.add_sub_cancel,
    List.getD_eq_getElem _ _ hj] at hclass
  exact hclass.resolve_right hspace

/-- `FIRST_DIGIT` comes to index 2 only where index 1 has no digit (R59). -/
theorem digitAt_one_of_digitPos_two {s : List Octet} (h : digitPos .firstDigit s = some 2) : digitAt s 1 = false := by
  rw [digitPos] at h
  split_ifs at h with h1
  · cases h
  · exact Bool.eq_false_of_not_eq_true h1

/-- An accepted callsign is of the pattern, cut at the digit the scan has found (R57..R61). -/
theorem callsignShape_of_callsignField_ok {scan : DigitScan} {s : List Octet} {call6 : Vector Octet 6} {n : BitVec 28}
    (h : callsignField scan s = .ok (call6, n)) : ∃ front d tail, CallsignShape scan s front d tail := by
  obtain ⟨hmin, -, hall, p, hpos, hfit, htrail, -, -⟩ := callsignField_ok.mp h
  obtain ⟨hp, hdigit⟩ := digitPos_some hpos
  have hlt : p < s.length := by omega
  have hcut : s = s.take p ++ s[p] :: s.drop (p + 1) := by
    rw [List.getElem_cons_drop, List.take_append_drop]
  have hfront : (s.take p).length = p := List.length_take_of_le hlt.le
  have htail : (s.drop (p + 1)).length = s.length - (p + 1) := List.length_drop
  have halnum : ∀ b ∈ s, isAlnum b = true := List.all_eq_true.mp hall
  refine ⟨s.take p, s[p], s.drop (p + 1), hcut, hmin, by rwa [hfront], ?_, ?_, by omega, by omega, ?_, ?_⟩
  · exact List.all_eq_true.mpr fun b hb => halnum b (List.mem_of_mem_take hb)
  · rwa [digitAt, List.getElem?_eq_getElem hlt] at hdigit
  · refine tail_all_isUpper (front := s.take p) (d := s[p]) (by omega) (by omega)
      (List.all_eq_true.mpr fun b hb => halnum b (List.mem_of_mem_drop hb)) ?_
    rwa [← hcut, hfront]
  · rintro rfl
    obtain rfl | rfl := hp
    · simp [digitAt]
    · simpa [digitAt] using digitAt_one_of_digitPos_two hpos

/-- The callsigns that pack are those of the pattern, and `CALL6` and `N` follow from its parts (R56). -/
theorem callsignField_ok_iff_shape {scan : DigitScan} {s : List Octet} {call6 : Vector Octet 6} {n : BitVec 28} :
    callsignField scan s = .ok (call6, n) ↔ ∃ front d tail, CallsignShape scan s front d tail ∧
      call6 = normalize (2 - front.length) s ∧ n = BitVec.ofNat 28 (callPack call6) := by
  constructor
  · intro h
    obtain ⟨front, d, tail, hshape⟩ := callsignShape_of_callsignField_ok h
    cases h.symm.trans hshape.callsignField_eq
    exact ⟨front, d, tail, hshape, rfl, rfl⟩
  · rintro ⟨front, d, tail, hshape, rfl, rfl⟩
    exact hshape.callsignField_eq

/-- A callsign that does not pack has InvalidCallsign as its error (R56). -/
theorem callsignField_eq_error {scan : DigitScan} {s : List Octet} (h : ∀ field, callsignField scan s ≠ .ok field) :
    callsignField scan s = .error .invalidCallsign := by
  cases hfield : callsignField scan s with
  | ok field => exact absurd hfield (h field)
  | error e => rw [callsignField_error hfield]

/-! ### The positions of an accepted callsign -/

section
variable {scan : DigitScan} {s front tail : List Octet} {d : Octet}

/-- `CALL6[2]` is the digit (R60). -/
theorem CallsignShape.get_two (h : CallsignShape scan s front d tail) :
    (normalize (2 - front.length) s).get 2 = d := by
  obtain ⟨rfl, -, hfront, -⟩ := h
  exact normalize_get_of_le front d tail (by omega) 2 (by decide)

/-- `CALL6[3..5]` is the tail, then spaces (R60). -/
theorem CallsignShape.get_tail (h : CallsignShape scan s front d tail) (i : Fin 6) (hi : 3 ≤ i.val) :
    (normalize (2 - front.length) s).get i = tail.getD (i.val - 3) space := by
  obtain ⟨rfl, -, hfront, -⟩ := h
  exact normalize_get_tail front d tail (by omega) i hi

/-- An index inside the tail is a letter's. -/
theorem CallsignShape.get_isUpper (h : CallsignShape scan s front d tail) (i : Fin 6) (hi : 3 ≤ i.val)
    (hlt : i.val < 3 + tail.length) : isUpper ((normalize (2 - front.length) s).get i) = true := by
  obtain ⟨-, -, -, -, -, -, -, hupper, -⟩ := id h
  rw [h.get_tail i hi, List.getD_eq_getElem _ _ (by omega)]
  exact List.all_eq_true.mp hupper _ (List.getElem_mem _)

/-- An index behind the tail is a padding space's. -/
theorem CallsignShape.get_eq_space (h : CallsignShape scan s front d tail) (i : Fin 6) (hi : 3 + tail.length ≤ i.val) :
    (normalize (2 - front.length) s).get i = space := by
  rw [h.get_tail i (by omega), List.getD_eq_default _ _ (by omega)]

/-- `CALL6[3..5]` are letters or padding spaces (R61). -/
theorem CallsignShape.get_trailing (h : CallsignShape scan s front d tail) (i : Fin 6) (hi : 3 ≤ i.val) :
    isUpper ((normalize (2 - front.length) s).get i) = true ∨ (normalize (2 - front.length) s).get i = space :=
  (Nat.lt_or_ge i.val (3 + tail.length)).imp (h.get_isUpper i hi) (h.get_eq_space i)

/-- `CALL6[0..1]` are the space and a letter or digit, with two letters at least behind the digit, or two letters or
digits, of which `FIRST_DIGIT` makes the second a letter (R62). -/
theorem CallsignShape.leading_cases (h : CallsignShape scan s front d tail) :
    (front.length = 1 ∧ (normalize (2 - front.length) s).get 0 = space ∧
      isAlnum ((normalize (2 - front.length) s).get 1) = true ∧ 2 ≤ tail.length) ∨
    (front.length = 2 ∧ isAlnum ((normalize (2 - front.length) s).get 0) = true ∧
      isAlnum ((normalize (2 - front.length) s).get 1) = true ∧
      (scan = .firstDigit → isUpper ((normalize (2 - front.length) s).get 1) = true)) := by
  obtain ⟨rfl, -⟩ := id h
  obtain ⟨b, rfl, hb, htail⟩ | ⟨b0, b1, rfl, hb0, hb1, hscan⟩ := h.front_cases
  · simp only [normalize_get]
    exact .inl ⟨rfl, rfl, hb, htail⟩
  · simp only [normalize_get]
    refine .inr ⟨rfl, hb0, hb1, fun hfirst => ?_⟩
    exact (Bool.or_eq_true_iff.mp hb1).resolve_left (Bool.eq_false_iff.mp (hscan hfirst))

/-- The code of `CALL6[0]` and `CALL6[1]` (R62). -/
theorem CallsignShape.code_leading_le (h : CallsignShape scan s front d tail) :
    code ((normalize (2 - front.length) s).get 0) ≤ 36 ∧ code ((normalize (2 - front.length) s).get 1) ≤ 35 := by
  obtain ⟨-, h0, h1, -⟩ | ⟨-, h0, h1, -⟩ := h.leading_cases
  · exact ⟨h0 ▸ le_rfl, code_le_of_isAlnum h1⟩
  · exact ⟨(code_le_of_isAlnum h0).trans (by decide), code_le_of_isAlnum h1⟩

/-- The code of `CALL6[2]` (R62). -/
theorem CallsignShape.code_digit_le (h : CallsignShape scan s front d tail) :
    code ((normalize (2 - front.length) s).get 2) ≤ 9 := by
  obtain ⟨-, -, -, -, hd, -⟩ := id h
  exact h.get_two ▸ code_le_of_isDigit hd

/-- The codes of `CALL6[3..5]` (R62). -/
theorem CallsignShape.code_trailing_bounds (h : CallsignShape scan s front d tail) (i : Fin 6) (hi : 3 ≤ i.val) :
    10 ≤ code ((normalize (2 - front.length) s).get i) ∧ code ((normalize (2 - front.length) s).get i) ≤ 36 :=
  code_bounds_of_trailing (h.get_trailing i hi)

/-- The largest `N` is that of "Z9ZZ": with the space in front two letters at least stand behind the digit, and any
other first octet has a lower code (R64). -/
theorem CallsignShape.callPack_le (h : CallsignShape scan s front d tail) :
    callPack (normalize (2 - front.length) s) ≤ 262176803 := by
  obtain ⟨-, -, -, -, -, htail, -⟩ := id h
  have h2 := h.code_digit_le
  have h3 := code_bounds_of_isUpper (h.get_isUpper 3 (by decide) (Nat.lt_add_of_pos_right htail))
  have h4 := h.code_trailing_bounds 4 (by decide)
  have h5 := h.code_trailing_bounds 5 (by decide)
  rw [callPack_eq_get]
  obtain ⟨-, h0, h1, hlen⟩ | ⟨-, h0, h1, -⟩ := h.leading_cases
  · have h0 : code ((normalize (2 - front.length) s).get 0) = 36 := congrArg code h0
    have h1 := code_le_of_isAlnum h1
    have h4 := code_bounds_of_isUpper (h.get_isUpper 4 (by decide) (Nat.add_lt_add_left hlen 3))
    omega
  · have h0 := code_le_of_isAlnum h0
    have h1 := code_le_of_isAlnum h1
    omega

/-- The smallest `N` under `FIRST_DIGIT` is that of "0A0AAA": a letter stands at index 1, or the space in
front (R64). -/
theorem CallsignShape.le_callPack (h : CallsignShape .firstDigit s front d tail) :
    1968300 ≤ callPack (normalize (2 - front.length) s) := by
  rw [callPack_eq_get]
  obtain ⟨-, h0, -, -⟩ | ⟨-, -, -, h1⟩ := h.leading_cases
  · have h0 : code ((normalize (2 - front.length) s).get 0) = 36 := congrArg code h0
    omega
  · have h1 := code_bounds_of_isUpper (h1 rfl)
    omega

/-- `N` holds the packed callsign with no truncation (R64). -/
theorem CallsignShape.toNat_callPack (h : CallsignShape scan s front d tail) :
    (BitVec.ofNat 28 (callPack (normalize (2 - front.length) s))).toNat = callPack (normalize (2 - front.length) s) :=
  toNat_ofNat_of_lt (h.callPack_le.trans_lt (by decide))

end

/-! ### The callsign's statements -/

/-- A callsign outside the pattern makes PACK_CALLSIGN raise InvalidCallsign (R57..R61). -/
theorem exec_packCallsign_of_invalid {s : State} (h : ¬ValidCallsign .firstDigit s.txn.request.callsign) :
    exec .packCallsign s = .next (s.raise .invalidCallsign) :=
  exec_packCallsign_of_not_ok fun _ hok => h (callsignShape_of_callsignField_ok hok)

/-- Settles O15: a callsign that packs has a length of 4..6, letters and digits only, and the pattern of R57..R61. -/
theorem callsignLengthAndAlphabetChecked : Obligations.CallsignLengthAndAlphabetChecked := by
  refine ⟨fun s hlen => exec_packCallsign_of_not_ok fun field hok => ?_,
    fun s b hb hdigit hupper => exec_packCallsign_of_not_ok fun field hok => ?_,
    fun s hinvalid => ⟨_, exec_packCallsign_of_invalid hinvalid, rfl, rfl⟩⟩
  · obtain ⟨hmin, hmax, -⟩ := callsignField_ok.mp hok
    omega
  · obtain ⟨-, -, hall, -⟩ := callsignField_ok.mp hok
    have hchar := List.all_eq_true.mp hall b hb
    simp [hdigit, hupper] at hchar

/-- With digits at both indices of the window `FIRST_DIGIT` takes index 1, and the digit at index 2 then stands where
R61 needs a letter (R59). -/
theorem callsignField_of_two_digits {b0 b1 b2 : Octet} {rest : List Octet} (h1 : isDigit b1 = true)
    (h2 : isDigit b2 = true) : callsignField .firstDigit (b0 :: b1 :: b2 :: rest) = .error .invalidCallsign := by
  refine callsignField_eq_error fun ⟨call6, n⟩ hok => ?_
  obtain ⟨front, d, tail, hshape⟩ := callsignShape_of_callsignField_ok hok
  have hfront : some front.length = some 1 := hshape.digitPos_eq.symm.trans (if_pos h1)
  obtain ⟨heq, -, -, -, -, htail, -, hupper, -⟩ := hshape
  obtain ⟨b, rfl⟩ := List.length_eq_one_iff.mp (Option.some.inj hfront)
  obtain ⟨c, tail, rfl⟩ := List.exists_cons_of_length_pos htail
  cases heq
  have hc := isDigit_eq_false_of_isUpper (List.all_eq_true.mp hupper b2 List.mem_cons_self)
  exact Bool.eq_false_iff.mp hc h2

/-- Settles O16: the scan's two looks, and no field without the digit they look for. -/
theorem digitPositionByScan : Obligations.DigitPositionByScan := by
  refine ⟨fun b0 b1 b2 rest => ⟨rfl, rfl⟩, fun scan s hnone => ?_, fun b0 b1 b2 rest => callsignField_of_two_digits,
    ⟨_, rfl⟩, rfl⟩
  refine callsignField_eq_error fun ⟨call6, n⟩ hok => ?_
  obtain ⟨-, -, -, p, hpos, -⟩ := callsignField_ok.mp hok
  cases hnone.symm.trans hpos

/-- Settles O17: the text of `CALL6` by R60, its digit by the pattern. -/
theorem callsignIsRightAligned : Obligations.CallsignIsRightAligned := by
  intro scan s p hpos
  refine ⟨fun hlong => callsignField_eq_error fun ⟨call6, n⟩ hok => ?_, fun call6 n hok => ?_⟩
  · obtain ⟨-, -, -, p', hpos', hfit, -⟩ := callsignField_ok.mp hok
    cases hpos.symm.trans hpos'
    omega
  · obtain ⟨front, d, tail, hshape, rfl, -⟩ := callsignField_ok_iff_shape.mp hok
    cases hpos.symm.trans hshape.digitPos_eq
    rw [hshape.get_two]
    obtain ⟨rfl, -, hfront, -, -, -, htail, -⟩ := hshape
    exact ⟨normalize_toList _ _ (by rw [List.length_append, List.length_cons]; omega), by simp⟩

/-- Settles O18: the check of R61 position by position, and the tail of the pattern in `CALL6`. -/
theorem callsignTrailingClass : Obligations.CallsignTrailingClass := by
  refine ⟨fun scan s p i hpos hi hupper hspace => callsignField_eq_error fun ⟨call6, n⟩ hok => ?_,
    fun scan s call6 n hok => ?_⟩
  · obtain ⟨-, -, -, p', hpos', -, htrail, -⟩ := callsignField_ok.mp hok
    cases hpos.symm.trans hpos'
    obtain hletter | hpad := (trailingOk_iff _).mp htrail i hi
    · exact Bool.eq_false_iff.mp hupper hletter
    · exact hspace hpad
  · obtain ⟨front, d, tail, hshape, rfl, -⟩ := callsignField_ok_iff_shape.mp hok
    obtain ⟨-, -, -, -, -, htail, -⟩ := id hshape
    refine ⟨hshape.get_isUpper 3 (by decide) (Nat.lt_add_of_pos_right htail), hshape.get_trailing 4 (by decide),
      hshape.get_trailing 5 (by decide), fun h4 => hshape.get_eq_space 5 ?_⟩
    by_contra hlong
    have hlt : (4 : Fin 6).val < (5 : Fin 6).val := by decide
    have hletter := hshape.get_isUpper 4 (by decide) (hlt.trans (Nat.lt_of_not_le hlong))
    rw [h4] at hletter
    exact absurd hletter (by decide)

/-- Settles O19: the two forms of the front, the digit and the tail of the pattern in `CALL6`. -/
theorem callsignLeadingPositions : Obligations.CallsignLeadingPositions := by
  intro scan s p call6 n hpos hok
  obtain ⟨front, d, tail, hshape, rfl, -⟩ := callsignField_ok_iff_shape.mp hok
  cases hpos.symm.trans hshape.digitPos_eq
  obtain ⟨hc0, hc1⟩ := hshape.code_leading_le
  have htrailing : ∀ i : Fin 6, 3 ≤ i.val → 10 ≤ code ((normalize (2 - front.length) s).get i) ∧
      code ((normalize (2 - front.length) s).get i) - 10 ≤ 26 := fun i hi =>
    (hshape.code_trailing_bounds i hi).imp_right Nat.sub_le_of_le_add
  obtain ⟨-, -, -, -, hd, -⟩ := id hshape
  rw [← hshape.get_two] at hd
  obtain ⟨hlen, h0, h1, -⟩ | ⟨hlen, h0, h1, hfirst⟩ := hshape.leading_cases
  · exact ⟨hd, h1, fun _ h2 => by omega, fun _ => h0, fun h2 => by omega, hc0, hc1, hshape.code_digit_le, htrailing⟩
  · exact ⟨hd, h1, fun hscan _ => hfirst hscan, fun h1 => by omega, fun _ => h0, hc0, hc1, hshape.code_digit_le,
      htrailing⟩

/-- Settles O20: the bounds of the packed callsign, and the callsigns that reach them. -/
theorem callsignFieldRange : Obligations.CallsignFieldRange := by
  refine ⟨fun scan s call6 n hok => ?_, fun scan => ?_, ⟨_, rfl⟩, ⟨_, rfl⟩⟩
  · obtain ⟨front, d, tail, hshape, rfl, rfl⟩ := callsignField_ok_iff_shape.mp hok
    rw [hshape.toNat_callPack]
    exact ⟨rfl, hshape.callPack_le.trans (by decide), hshape.callPack_le, fun hscan => (hscan ▸ hshape).le_callPack⟩
  · cases scan
    · exact ⟨_, rfl⟩
    · exact ⟨_, rfl⟩

/-- Settles O22: the field of a callsign of the pattern. -/
theorem packCallsignCompletes : Obligations.PackCallsignCompletes := by
  intro s front d tail hshape
  refine ⟨_, _, ?_, ?_, exec_packCallsign_of_ok hshape.callsignField_eq⟩
  · obtain ⟨htext, -, hfront, -, -, -, htail, -⟩ := hshape
    have hlen : s.txn.request.callsign.length = front.length + (tail.length + 1) := by
      rw [htext, List.length_append, List.length_cons]
    have hpad : 6 - (2 - front.length) - s.txn.request.callsign.length = 3 - tail.length := by omega
    rw [normalize_toList _ _ (by omega), hpad, htext, ← List.append_assoc]
    rfl
  · have h3 := hshape.code_trailing_bounds 3 (by decide)
    have h4 := hshape.code_trailing_bounds 4 (by decide)
    have h5 := hshape.code_trailing_bounds 5 (by decide)
    rw [hshape.toNat_callPack, callPack_eq_get]
    omega

end Sys2Proof.Machine

/-! PROOFS. Family 41: the message assembler ASSEMBLE (R77, R78). -/

namespace Sys2Proof.Machine

/-- Bit `i` of `U` is information bit `W[49-i]` for `i` at most 49, and a flush zero from there on (R50). -/
theorem encoderInput_get (w : BitVec 50) (i : Fin 81) :
    (encoderInput w).get i = if i.val ≤ 49 then w.getLsbD (49 - i.val) else false :=
  Vector.get_ofFn _ _

/-- The information bits stand first in `U`, the most significant of `W` at index 0 (R77). -/
theorem encoderInput_get_of_le (w : BitVec 50) {i : Fin 81} (h : i.val ≤ 49) :
    (encoderInput w).get i = w.getLsbD (49 - i.val) := by
  rw [encoderInput_get, if_pos h]

/-- The 31 flush bits stand last in `U` and are zero (R78). -/
theorem encoderInput_get_of_ge (w : BitVec 50) {i : Fin 81} (h : 50 ≤ i.val) : (encoderInput w).get i = false := by
  rw [encoderInput_get, if_neg (Nat.not_le_of_lt h)]

/-- The power's bits are the low seven of `W` (R49). -/
theorem messageWord_getLsbD_power (n : BitVec 28) (l : BitVec 15) (q : BitVec 7) {j : Nat} (h : j < 7) :
    (messageWord n l q).getLsbD j = q.getLsbD j := by
  rw [messageWord, BitVec.getLsbD_append, if_pos h]

/-- ASSEMBLE completes in every state, by updating the transaction's storage alone (R77). -/
theorem exec_assemble (s : State) : exec .assemble s = .next { s with txn := s.txn.assemble } := rfl

/-- Settles O31: `W` is the message word and `U` its encoder input. The last information bit is bit 0 of `W`, the
power's own. -/
theorem assembleCompletes : Obligations.AssembleCompletes := by
  intro s
  refine ⟨_, _, messageWord_toNat _ _ _, fun i => encoderInput_get_of_le _, fun i => encoderInput_get_of_ge _, ?_,
    exec_assemble s⟩
  have hlast := encoderInput_get_of_le (messageWord s.txn.nField s.txn.lField s.txn.pField) (i := 49) (le_refl 49)
  exact hlast.trans (messageWord_getLsbD_power _ _ _ (by decide))

end Sys2Proof.Machine

/-! PROOFS. Family 42: the convolutional encoder CONV_STEP and CONV_ENCODE (R81..R88). -/

namespace Sys2Proof.Machine

/-! ### The generator masks -/

/-- Settles O33, by evaluating the two masks. -/
theorem generatorMasks : Obligations.GeneratorMasks := by
  unfold Obligations.GeneratorMasks
  decide +kernel

/-- A mask's parity counts the register bits that its MSB-orientation form selects (R12, R82). -/
theorem tapParity_eq_popcount (poly sr : BitVec 32) :
    tapParity poly sr = decide (popcount (sr &&& bitrev poly) % 2 = 1) :=
  parity32_eq_popcount _

/-! ### One step -/

/-- The shift halves the register, and the input bit has the weight of the most significant end (R82). -/
theorem shiftIn_toNat (sr : BitVec 32) (u : Bool) :
    (shiftIn sr u).toNat = sr.toNat / 2 + (if u = true then 2 ^ 31 else 0) := by
  have hhalf : sr.toNat / 2 < 2 ^ 31 := by omega
  have hor := Nat.two_pow_add_eq_or_of_lt hhalf u.toNat
  rw [shiftIn, BitVec.toNat_or, BitVec.toNat_ushiftRight, Nat.shiftRight_one, Nat.or_comm]
  cases u
  · simp
  · simpa [Nat.add_comm] using hor.symm

/-- CONV_STEP writes polynomial A's parity first, then B's (R82). -/
theorem Txn.convStep_pair (p : Params) (k : Fin 81) (t : Txn) :
    (t.convStep p k).codeword[2 * k.val]? = some (tapParity p.polyA (shiftIn t.sr (t.input.get k))) ∧
    (t.convStep p k).codeword[2 * k.val + 1]? = some (tapParity p.polyB (shiftIn t.sr (t.input.get k))) := by
  simp [Txn.convStep]

/-- CONV_STEP completes at a step index, by updating the transaction's storage alone (R82). -/
theorem exec_convStep_of_index {s : State} {k : Fin 81} (h : s.txn.k = k.castSucc) :
    exec .convStep s = .next { s with txn := s.txn.convStep hardware k } := by
  have hval : s.txn.k.val = k.val := congrArg Fin.val h
  have hlt : s.txn.k.val < 81 := hval ▸ k.isLt
  have hk : (⟨s.txn.k.val, hlt⟩ : Fin 81) = k := Fin.ext hval
  exact (dif_pos hlt).trans (by rw [hk])

/-- Settles O34: the pair written is the two parities of the shifted register, and the masks of R81 say which of its bits
they count. -/
theorem convStepCompletes : Obligations.ConvStepCompletes := by
  intro s k hk
  obtain ⟨-, -, hA, hB, -⟩ := generatorMasks
  obtain ⟨heven, hodd⟩ := s.txn.convStep_pair hardware k
  rw [tapParity_eq_popcount, hA] at heven
  rw [tapParity_eq_popcount, hB] at hodd
  refine ⟨_, _, shiftIn_toNat _ _, heven, hodd, fun i hi => ?_, exec_convStep_of_index hk⟩
  rw [Txn.convStep_codeword_get, if_neg hi]

/-! ### The LSB-insertion form -/

/-- Bit `i` of the reversed register (R12). -/
theorem bitrev_getLsbD (v : BitVec 32) {i : Nat} (h : i < 32) : (bitrev v).getLsbD i = v.getLsbD (31 - i) := by
  rw [bitrev, BitVec.getLsbD_reverse, BitVec.getMsbD_eq_getLsbD, decide_eq_true h, Bool.true_and]

/-- Inserting at bit 31 with a shift to the right is the bit reversal of inserting at bit 0 with a shift to the left
(R83). -/
theorem bitrev_shiftIn (sr : BitVec 32) (u : Bool) : bitrev (shiftIn sr u) = (bitrev sr).shiftConcat u := by
  refine BitVec.eq_of_getLsbD_eq fun i hi => ?_
  rw [BitVec.getLsbD_shiftConcat, decide_eq_true hi, Bool.true_and, bitrev_getLsbD _ hi, shiftIn_getLsbD _ _ _ hi,
    bitrev_getLsbD _ (by omega)]

/-- The parity of the reversed register under a mask as given is that of the register under the reversed mask (R83). -/
theorem tapParity_eq_parity32_bitrev (poly sr : BitVec 32) : tapParity poly sr = parity32 (bitrev sr &&& poly) := by
  rw [tapParity_eq, parity32, bitsOf]
  refine congrArg xorAll (List.map_congr_left fun i hi => ?_)
  rw [BitVec.getLsbD_and, bitrev_getLsbD _ (List.mem_range.mp hi), Bool.and_comm]

/-- Settles O36, from the reversed register and the reversed parity. -/
theorem lsbInsertionFormAgrees : Obligations.LsbInsertionFormAgrees := by
  intro sr poly u
  refine ⟨?_, tapParity_eq_parity32_bitrev _ _⟩
  rw [bitrev_shiftIn, BitVec.toNat_shiftConcat, Nat.shiftLeft_eq, pow_one]

/-! ### The codeword -/

/-- The codeword's pair at a step: polynomial A's bit, then B's (R50, R86). -/
theorem codewordOf_pair (p : Params) (u : BitSeq 81) (j : Fin 81) :
    (codewordOf p u)[2 * j.val]? = some (outputBit p.polyA u j.val) ∧
    (codewordOf p u)[2 * j.val + 1]? = some (outputBit p.polyB u j.val) := by
  have hj := j.isLt
  simp [codewordOf, show 2 * j.val < 162 by omega, show 2 * j.val + 1 < 162 by omega,
    show (2 * j.val + 1) / 2 = j.val by omega, show (2 * j.val + 1) % 2 = 1 by omega]

/-- The input bit `t` steps before, for a step that has one. -/
theorem inputBefore_of_le (u : BitSeq 81) {j : Fin 81} {t : Nat} (h : t ≤ j.val) :
    inputBefore u j.val t = u.get ⟨j.val - t, by omega⟩ := by
  simp [inputBefore, h, show j.val - t < 81 by omega, Vector.get_eq_getElem]

/-- Before the first step there is no input (R84). -/
theorem inputBefore_of_lt (u : BitSeq 81) {j t : Nat} (h : j < t) : inputBefore u j t = false := by
  simp [inputBefore, Nat.not_le_of_lt h]

/-- Two inputs that agree on the current bit and the 31 before it give the same output bit (R87). -/
theorem outputBit_congr {poly : BitVec 32} {u v : BitSeq 81} {j : Fin 81}
    (h : ∀ i : Fin 81, i.val ≤ j.val → j.val ≤ i.val + 31 → u.get i = v.get i) :
    outputBit poly u j.val = outputBit poly v j.val := by
  refine congrArg xorAll (List.map_congr_left fun t ht => ?_)
  have ht : t < 32 := List.mem_range.mp ht
  rcases Nat.lt_or_ge j.val t with hlt | hle
  · rw [inputBefore_of_lt u hlt, inputBefore_of_lt v hlt]
  · rw [inputBefore_of_le u hle, inputBefore_of_le v hle, h _ (by simp) (by simp; omega)]

/-! ### Linearity -/

/-- XOR goes through a sum of bits. -/
theorem xorAll_map_xor (l : List Nat) (f g : Nat → Bool) :
    xorAll (l.map fun t => f t ^^ g t) = (xorAll (l.map f) ^^ xorAll (l.map g)) := by
  induction l with
  | nil => rfl
  | cons t l ih =>
    rw [List.map_cons, List.map_cons, List.map_cons, xorAll_cons, xorAll_cons, xorAll_cons, ih, Bool.xor_assoc,
      Bool.xor_assoc, Bool.xor_left_comm (g t)]

/-- XOR goes through the choice of an input bit. -/
theorem inputBefore_zipWith_xor (u v : BitSeq 81) (j : Fin 81) (t : Nat) :
    inputBefore (Vector.zipWith xor u v) j.val t = (inputBefore u j.val t ^^ inputBefore v j.val t) := by
  rcases Nat.lt_or_ge j.val t with hlt | hle
  · rw [inputBefore_of_lt _ hlt, inputBefore_of_lt _ hlt, inputBefore_of_lt _ hlt]; rfl
  · rw [inputBefore_of_le _ hle, inputBefore_of_le _ hle, inputBefore_of_le _ hle]
    simp [Vector.get_eq_getElem]

/-- An output bit is GF(2)-linear in the input (R86). -/
theorem outputBit_zipWith_xor (poly : BitVec 32) (u v : BitSeq 81) (j : Fin 81) :
    outputBit poly (Vector.zipWith xor u v) j.val = (outputBit poly u j.val ^^ outputBit poly v j.val) := by
  simp only [outputBit, inputBefore_zipWith_xor, Bool.and_xor_distrib_left, xorAll_map_xor]

/-- The codeword is GF(2)-linear in the input (R86). -/
theorem codewordOf_zipWith_xor (p : Params) (u v : BitSeq 81) :
    codewordOf p (Vector.zipWith xor u v) = Vector.zipWith xor (codewordOf p u) (codewordOf p v) := by
  ext i hi
  rw [Vector.getElem_zipWith, codewordOf, codewordOf, codewordOf, Vector.getElem_ofFn, Vector.getElem_ofFn,
    Vector.getElem_ofFn]
  exact outputBit_zipWith_xor _ u v ⟨i / 2, by omega⟩

/-! ### The impulse response -/

/-- A sum of bits of which only that at `d` can be set. -/
theorem xorAll_map_range_single (f : Nat → Bool) (n d : Nat) :
    xorAll ((List.range n).map fun t => f t && decide (t = d)) = (decide (d < n) && f d) := by
  induction n with
  | zero => simp
  | succ n ih =>
    rw [List.range_succ, List.map_append, xorAll_append, ih, List.map_singleton, xorAll_cons, xorAll_nil,
      Bool.xor_false]
    rcases Nat.lt_trichotomy d n with hlt | rfl | hgt
    · simp [hlt, Nat.lt_succ_of_lt hlt, Nat.ne_of_gt hlt]
    · simp
    · simp [Nat.not_lt_of_gt hgt, Nat.ne_of_lt hgt, show ¬d < n + 1 by omega]

/-- With a single 1 at `U[m]`, the input `t` steps before step `j` is 1 for `t` = `j - m` alone (R86). -/
theorem inputBefore_impulse {u : BitSeq 81} {m : Fin 81} (hu : ∀ i : Fin 81, u.get i = decide (i = m)) (j : Fin 81)
    (t : Nat) : inputBefore u j.val t = (decide (m ≤ j) && decide (t = j.val - m.val)) := by
  rw [← Bool.decide_and]
  rcases Nat.lt_or_ge j.val t with hlt | hle
  · rw [inputBefore_of_lt u hlt]
    exact (decide_eq_false (by omega)).symm
  · rw [inputBefore_of_le u hle, hu]
    exact decide_eq_decide.mpr (by simp only [Fin.ext_iff]; omega)

/-- A single 1 in the input gives the mask's own bits, from its step on (R86). -/
theorem outputBit_impulse (poly : BitVec 32) {u : BitSeq 81} {m : Fin 81} (hu : ∀ i : Fin 81, u.get i = decide (i = m))
    (j : Fin 81) : outputBit poly u j.val = (decide (m ≤ j) && poly.getLsbD (j.val - m.val)) := by
  simp only [outputBit, inputBefore_impulse hu j, ← Bool.and_assoc, xorAll_map_range_single]
  rcases Nat.lt_or_ge (j.val - m.val) 32 with hlt | hge
  · rw [decide_eq_true hlt, Bool.true_and, Bool.and_comm]
  · rw [BitVec.getLsbD_of_ge _ _ hge, Bool.and_false, Bool.and_false, Bool.false_and]

/-- Settles O38, from the linearity and the impulse response of the closed form. -/
theorem codewordIsLinear : Obligations.CodewordIsLinear := by
  refine ⟨fun p t1 t2 t3 h => ?_, fun p t m j hu => ?_⟩
  · rw [Txn.convEncode_codeword, Txn.convEncode_codeword, Txn.convEncode_codeword, h, codewordOf_zipWith_xor]
  · rw [Txn.convEncode_codeword, ← outputBit_impulse p.polyA hu j, ← outputBit_impulse p.polyB hu j]
    exact codewordOf_pair p t.input j

/-! ### The constraint length -/

/-- Inputs that differ in one bit alone have the impulse at that bit as their XOR. -/
theorem zipWith_xor_get_of_differ {u v : BitSeq 81} {m : Fin 81} (h : ∀ i : Fin 81, u.get i = v.get i ↔ i ≠ m)
    (i : Fin 81) : (Vector.zipWith xor u v).get i = decide (i = m) := by
  rw [show (Vector.zipWith xor u v).get i = (u.get i ^^ v.get i) by simp [Vector.get_eq_getElem]]
  by_cases hi : i = m
  · rw [decide_eq_true hi, Bool.xor_iff_ne]
    exact fun heq => (h i).mp heq hi
  · rw [decide_eq_false hi, (h i).mpr hi, Bool.xor_self]

/-- Changing only an input bit that the mask selects changes the output bit: its change is the impulse response (R86,
R87). -/
theorem outputBit_ne_of_differ {poly : BitVec 32} {u v : BitSeq 81} {j m : Fin 81} (hm : m ≤ j)
    (hbit : poly.getLsbD (j.val - m.val) = true) (h : ∀ i : Fin 81, u.get i = v.get i ↔ i ≠ m) :
    outputBit poly u j.val ≠ outputBit poly v j.val := by
  have hxor := outputBit_impulse poly (zipWith_xor_get_of_differ h) j
  rw [outputBit_zipWith_xor, decide_eq_true hm, hbit, Bool.true_and] at hxor
  exact Bool.xor_iff_ne.mp hxor

/-- A mask with its end bits set selects the current bit and the bit 31 steps before (R87). -/
theorem outputBit_ne_of_differ_end {poly : BitVec 32} {u v : BitSeq 81} {j m : Fin 81} (h0 : poly.getLsbD 0 = true)
    (h31 : poly.getLsbD 31 = true) (hm : m = j ∨ m.val + 31 = j.val) (h : ∀ i : Fin 81, u.get i = v.get i ↔ i ≠ m) :
    outputBit poly u j.val ≠ outputBit poly v j.val := by
  rcases hm with rfl | hm
  · exact outputBit_ne_of_differ (le_refl m) (by rwa [Nat.sub_self]) h
  · exact outputBit_ne_of_differ (by omega) (by rwa [show j.val - m.val = 31 by omega]) h

/-- Settles O39: only the last 32 inputs enter an output bit, and both masks select the first and the last of them. -/
theorem constraintLengthIsThirtyTwo : Obligations.ConstraintLengthIsThirtyTwo := by
  refine ⟨fun p t1 t2 j h => ?_, fun t1 t2 j m hm h => ?_⟩
  · obtain ⟨hA1, hB1⟩ := codewordOf_pair p t1.input j
    obtain ⟨hA2, hB2⟩ := codewordOf_pair p t2.input j
    rw [Txn.convEncode_codeword, Txn.convEncode_codeword, hA1, hB1, hA2, hB2, outputBit_congr h, outputBit_congr h]
    exact ⟨rfl, rfl⟩
  · obtain ⟨hA1, hB1⟩ := codewordOf_pair hardware t1.input j
    obtain ⟨hA2, hB2⟩ := codewordOf_pair hardware t2.input j
    obtain ⟨-, -, -, -, -, -, hA0, hA31, hB0, hB31⟩ := generatorMasks
    rw [Txn.convEncode_codeword, Txn.convEncode_codeword, hA1, hB1, hA2, hB2]
    exact ⟨fun heq => outputBit_ne_of_differ_end hA0 hA31 hm h (Option.some.inj heq),
      fun heq => outputBit_ne_of_differ_end hB0 hB31 hm h (Option.some.inj heq)⟩

/-! ### The final register -/

/-- After the last step the register holds the last 32 inputs, the newest at its most significant end (R88). -/
theorem Txn.convEncode_sr_getLsbD (p : Params) (t : Txn) (i : Fin 32) :
    (t.convEncode p).sr.getLsbD i.val = t.input.get ⟨49 + i.val, by omega⟩ := by
  obtain ⟨⟨hreg, -⟩, hk⟩ := t.convEncode_partlyEncoded p
  have hi := i.isLt
  have h := hreg (31 - i.val) (by omega)
  simpa [hk, show 31 - (31 - i.val) = i.val by omega, show 80 - (31 - i.val) = 49 + i.val by omega,
    show 49 + i.val < 81 by omega, show 31 - i.val < 81 by omega, Vector.get_eq_getElem] using h

/-- Of the last 32 inputs of an assembled message, the first is `P[0]` and the others are flush zeros (R78, R88). -/
theorem Txn.assemble_convEncode_sr (p : Params) (t : Txn) :
    (t.assemble.convEncode p).sr = (BitVec.ofBool (t.pField.getLsbD 0)).setWidth 32 := by
  refine BitVec.eq_of_getLsbD_eq fun i hi => ?_
  rw [Txn.convEncode_sr_getLsbD p t.assemble ⟨i, hi⟩, Txn.assemble_input]
  cases i with
  | zero =>
    rw [encoderInput_get_of_le _ (by simp), messageWord_getLsbD_power _ _ _ (by simp)]
    simp
  | succ i =>
    rw [encoderInput_get_of_ge _ (by simp; omega)]
    simp

/-- Settles O40: the register, and its bit reversal. -/
theorem finalRegisterIsTheLastMessageBit : Obligations.FinalRegisterIsTheLastMessageBit := by
  intro p t
  refine ⟨t.assemble_convEncode_sr p, ?_⟩
  rw [t.assemble_convEncode_sr p]
  cases t.pField.getLsbD 0 <;> decide +kernel

end Sys2Proof.Machine

/-! PROOFS. Family 43: the interleaver INTERLEAVE, its table, and the scatter against the gather form (R89..R93). -/

namespace Sys2Proof.Machine

/-! ### The permutation -/

/-- Settles O41, by scanning the 256 indexes. -/
theorem permIsTheBitReversalScan : Obligations.PermIsTheBitReversalScan := by
  unfold Obligations.PermIsTheBitReversalScan
  decide +kernel

/-- `PERM` as a map of the positions 0..161 (R93). -/
def permIndex (k : Fin 162) : Fin 162 := ⟨(permTable.get k).toNat, permTable_distinct.2 k⟩

/-- The map reads the table (R89). -/
@[simp] theorem permIndex_val (k : Fin 162) : (permIndex k).val = (permTable.get k).toNat := rfl

/-- No two codeword bits go to one position (R93). -/
theorem permIndex_injective : Function.Injective permIndex := by
  intro j k hjk
  have hval : (permTable.get j).toNat = (permTable.get k).toNat := by
    rw [← permIndex_val, hjk, permIndex_val]
  have hidx : j.val = k.val :=
    (permTable_distinct.1.getElem_inj_iff (hi := by simp) (hj := by simp)).mp
      (by simpa [Vector.get_eq_getElem] using hval)
  exact Fin.ext hidx

/-- An injection of a finite set into itself reaches every position (R93). -/
theorem permIndex_bijective : Function.Bijective permIndex :=
  Finite.injective_iff_bijective.mp permIndex_injective

/-- `PERM` moves every position but 0 (R93). -/
theorem permIndex_eq_self_iff (k : Fin 162) : permIndex k = k ↔ k = 0 := by
  revert k
  decide +kernel

/-- Settles O42: the bijection by counting, the fixed points and the chain 1, 128, 147 from the table. -/
theorem permIsABijection : Obligations.PermIsABijection := by
  refine ⟨fun d => ?_, fun k => ?_, ?_⟩
  · simpa [Fin.ext_iff] using permIndex_bijective.existsUnique d
  · rw [← permIndex_eq_self_iff, Fin.ext_iff, permIndex_val]
  · decide +kernel

/-! ### INTERLEAVE -/

/-- INTERLEAVE completes in every state, by updating the transaction's storage alone (R90). -/
theorem exec_interleave (s : State) : exec .interleave s = .next { s with txn := s.txn.interleave } := rfl

/-- Settles O43: the word is the scattered codeword. -/
theorem interleaveCompletes : Obligations.InterleaveCompletes := fun s =>
  ⟨scatter s.txn.codeword s.txn.interleaved, scatter_getElem? s.txn.codeword s.txn.interleaved, exec_interleave s⟩

/-! ### The gather form -/

/-- `IPERM` undoes `PERM` (R92). -/
theorem ipermTable_get_permIndex (k : Fin 162) : ipermTable.get (permIndex k) = BitVec.ofNat 8 k.val := by
  revert k
  decide +kernel

/-- The position `PERM[k]` receives codeword bit `k` (R90). -/
theorem scatter_get_permIndex (c buf : BitSeq 162) (k : Fin 162) : (scatter c buf).get (permIndex k) = c.get k := by
  have h := scatter_getElem? c buf k
  rw [← permIndex_val, Vector.getElem?_eq_getElem (permIndex k).isLt] at h
  exact Option.some.inj h

/-- Settles O44: every position is `PERM[k]` for some `k`; there scatter has put bit `k`, and gather looks up
`IPERM[PERM[k]] = k`. -/
theorem gatherFormAgrees : Obligations.GatherFormAgrees := by
  refine ⟨fun k => ?_, fun cw buf d => ?_⟩
  · rw [← permIndex_val, Vector.getElem?_eq_getElem (permIndex k).isLt]
    exact congrArg some (ipermTable_get_permIndex k)
  · obtain ⟨k, rfl⟩ := permIndex_bijective.surjective d
    have hk : (ipermTable.get (permIndex k)).toNat = k.val := by
      rw [ipermTable_get_permIndex]
      exact toNat_ofNat_of_lt (by omega)
    rw [scatter_get_permIndex, hk, Vector.getElem?_eq_getElem k.isLt]
    rfl

end Sys2Proof.Machine

/-! PROOFS. Family 44: the symbol merger MERGE_SYNC (R94..R97). -/

namespace Sys2Proof.Machine

/-! ### The sync vector -/

/-- The sync vector of this hardware lists the entries of R94's table, row by row. -/
theorem hardware_sync_toList : hardware.sync.toList = syncBits.map (· == 1) := by
  simp [hardware]

/-- Settles O45: the number is read and the digits are counted row by row, each row by evaluating its 18 entries. -/
theorem syncVectorTable : Obligations.SyncVectorTable := by
  unfold Obligations.SyncVectorTable
  rw [hardware_sync_toList, syncBits]
  simp only [List.map_append, List.foldl_append, List.count_append]
  exact ⟨by simp, rfl, rfl⟩

/-! ### MERGE_SYNC -/

/-- The high bit of a symbol is its data bit (R97). -/
theorem symbolOf_div_two (data sync : Bool) : (symbolOf data sync).val / 2 = data.toNat := by
  have hsync := sync.toNat_lt
  rw [symbolOf_val]
  omega

/-- The low bit of a symbol is its sync bit (R97). -/
theorem symbolOf_mod_two (data sync : Bool) : (symbolOf data sync).val % 2 = sync.toNat := by
  have hsync := sync.toNat_lt
  rw [symbolOf_val]
  omega

/-- MERGE_SYNC completes in every state, by updating the transaction's storage alone (R95). -/
theorem exec_mergeSync (s : State) : exec .mergeSync s = .next { s with txn := s.txn.mergeSync hardware } := rfl

/-- Settles O46: symbol `i` is made of data bit `i` and sync bit `i`, and both come back from it. -/
theorem mergeSyncCompletes : Obligations.MergeSyncCompletes := by
  refine fun s => ⟨(s.txn.mergeSync hardware).symbols, fun i => ?_, exec_mergeSync s⟩
  rw [Txn.mergeSync_get]
  exact ⟨symbolOf_val _ _, symbolOf_div_two _ _, symbolOf_mod_two _ _⟩

end Sys2Proof.Machine

/-! PROOFS. Family 45: the ENCODE transaction (R98..R105). -/

namespace Sys2Proof.Machine

/-- ENCODE completes for every request in every state, with the response of `encodeRequest` and the storage discarded
(R27, R98). -/
theorem exec_encode (r : Request) (s : State) :
    exec (.encode r) s = .next (s.respond (encodeRequest hardware r)).discard := rfl

/-! ### What the storage held at the start -/

/-- Storage of the same request packs to the same fields, or fails with the same error, whatever else it holds (R28,
R99). -/
theorem Txn.pack_cases_of_request_eq (p : Params) {t u : Txn} (h : t.request = u.request) :
    (∃ call6 n l q, t.pack p = .ok { t with call6 := call6, nField := n, lField := l, pField := q } ∧
      u.pack p = .ok { u with call6 := call6, nField := n, lField := l, pField := q }) ∨
    ∃ e, t.pack p = .error e ∧ u.pack p = .error e := by
  obtain ⟨call6, n, l, q, hc, hl, hq, ht⟩ | ⟨⟨e, hc⟩, ht⟩ | ⟨⟨field, hc⟩, ⟨e, hl⟩, ht⟩ |
    ⟨⟨field, hc⟩, ⟨l, hl⟩, ⟨e, hq⟩, ht⟩ := t.pack_cases p
  · exact .inl ⟨call6, n, l, q, ht, by simpa [← h, hc, hl, hq] using u.pack_cases p⟩
  · exact .inr ⟨_, ht, by simpa [← h, hc] using u.pack_cases p⟩
  · exact .inr ⟨_, ht, by simpa [← h, hc, hl] using u.pack_cases p⟩
  · exact .inr ⟨_, ht, by simpa [← h, hc, hl, hq] using u.pack_cases p⟩

/-- INTERLEAVE overwrites its whole buffer: the gather form reads the codeword alone (R92, R93). -/
theorem scatter_eq_scatter (c buf buf' : BitSeq 162) : scatter c buf = scatter c buf' := by
  ext i hi
  have hbuf := gatherFormAgrees.2 c buf ⟨i, hi⟩
  have hbuf' := gatherFormAgrees.2 c buf' ⟨i, hi⟩
  exact Option.some.inj (hbuf.trans hbuf'.symm)

/-- The symbols sent are the closed form of the three packed fields, interleaved and merged with the sync vector
(R98). -/
theorem Txn.transmit_symbols (p : Params) (t : Txn) :
    (t.transmit p).symbols = Vector.zipWith symbolOf
      (scatter (codewordOf p (encoderInput (messageWord t.nField t.lField t.pField))) t.interleaved) p.sync := by
  simp [Txn.transmit]

/-- The stages after packing read nothing of the storage but the three packed fields (R28). -/
theorem Txn.transmit_symbols_congr (p : Params) {t u : Txn} (hn : t.nField = u.nField) (hl : t.lField = u.lField)
    (hp : t.pField = u.pField) : (t.transmit p).symbols = (u.transmit p).symbols := by
  rw [Txn.transmit_symbols, Txn.transmit_symbols, hn, hl, hp, scatter_eq_scatter _ t.interleaved u.interleaved]

/-- Settles O49: the response is that of `encodeRequest`, which takes no state; packing is a function of the request
and the symbols are a function of the packed fields. -/
theorem encodeDependsOnTheRequestAlone : Obligations.EncodeDependsOnTheRequestAlone := by
  refine ⟨fun r => ⟨encodeRequest hardware r, fun s => ⟨_, exec_encode r s, by simp⟩⟩, fun t u h => ?_⟩
  obtain ⟨call6, n, l, q, ht, hu⟩ | ⟨e, ht, hu⟩ := Txn.pack_cases_of_request_eq hardware h
  · rw [ht, hu]
    exact congrArg Except.ok (Txn.transmit_symbols_congr hardware rfl rfl rfl)
  · rw [ht, hu]

end Sys2Proof.Machine

/-! PROOFS. Families 43 and 10: `PERM` and `IPERM` as one permutation (R92, R93), and one step of a transaction in progress as
the invariants of a run see it (R104). These definitions stand in front of the proofs that use them. A proof that waits for the
kernel's check of the tests holds a stack of its own, and the memory of one run bounds how many do so at one time: the tables
are evaluated here by plain `decide`, and Lean adds a structure only once all above it is checked, so no proof below waits. -/

namespace Sys2Proof.Machine

set_option maxRecDepth 4000 in
/-- `IPERM` as a map of the positions 0..161 (R92). -/
def ipermIndex (d : Fin 162) : Fin 162 := ⟨(ipermTable.get d).toNat, by revert d; decide⟩

set_option maxRecDepth 4000 in
/-- `PERM` is a permutation of the positions 0..161, and `IPERM` its inverse (R92, R93). -/
def permEquiv : Fin 162 ≃ Fin 162 where
  toFun := permIndex
  invFun := ipermIndex
  left_inv := by
    unfold Function.LeftInverse
    decide
  right_inv := by
    unfold Function.RightInverse Function.LeftInverse
    decide

/-- `t` is `s` after one more step of the transaction in progress: the same request, nothing else taken, and either no
response yet or the one of R98 and the transaction over. -/
structure State.Progress (s t : State) : Prop where
  coherent : t.Coherent
  requests : t.requests = s.requests
  stepping : t.stepping = s.stepping
  request : t.txn.request = s.txn.request
  stepsLeft : t.stepsLeft < s.stepsLeft
  outcome : t.txn.stage ≠ .done ∧ t.op ≠ 0 ∧ t.responses = s.responses ∨
    t.txn.stage = .done ∧ t.responses = s.responses ++ [encodeRequest hardware s.txn.request]

end Sys2Proof.Machine

/-! PROOFS. The response to a request, as the rules of the stages give it (R98, R99). -/

namespace Sys2Proof.Machine

/-! ### Valid fields -/

/-- The callsigns that pack are the valid ones (R57..R61). -/
theorem validCallsign_iff_ok {scan : DigitScan} {s : List Octet} :
    ValidCallsign scan s ↔ ∃ field, callsignField scan s = .ok field :=
  ⟨fun ⟨_, _, _, hshape⟩ => ⟨_, hshape.callsignField_eq⟩, fun ⟨_, hok⟩ => callsignShape_of_callsignField_ok hok⟩

/-- The locators that pack are the valid ones (R66, R67). -/
theorem validLocator_iff_ok {g : List Octet} : ValidLocator g ↔ ∃ l, locatorField g = .ok l := by
  constructor
  · rintro ⟨g0, g1, g2, g3, hg, h0, h1, h2, h3⟩
    exact ⟨_, locatorField_ok.mpr ⟨g0, g1, g2, g3, hg, h0, h1, h2, h3, rfl⟩⟩
  · rintro ⟨l, hok⟩
    obtain ⟨g0, g1, g2, g3, hg, h0, h1, h2, h3, -⟩ := locatorField_ok.mp hok
    exact ⟨g0, g1, g2, g3, hg, h0, h1, h2, h3⟩

/-- The powers that pack are the valid ones (R71). -/
theorem validPower_iff_ok {power : Int} : ValidPower power ↔ ∃ q, powerField power = .ok q :=
  ⟨fun h => ⟨_, powerField_ok.mpr ⟨h, rfl⟩⟩, fun ⟨_, hok⟩ => (powerField_ok.mp hok).1⟩

/-! ### The interleaved word -/

/-- INTERLEAVE makes an interleaved form of the codeword (R90). -/
theorem interleaves_scatter (c buf : BitSeq 162) : Interleaves c (scatter c buf) := scatter_getElem? c buf

/-- Bit `PERM[k]` of an interleaved form is bit `k` of the codeword (R90). -/
theorem Interleaves.get_permIndex {c w : BitSeq 162} (h : Interleaves c w) (k : Fin 162) :
    w.get (permIndex k) = c.get k := by
  have hk := h k
  rw [← permIndex_val, Vector.getElem?_eq_getElem (permIndex k).isLt] at hk
  exact Option.some.inj hk

/-- `IPERM` says which codeword bit stands at a position (R92). -/
theorem permIndex_ipermIndex (d : Fin 162) : permIndex (ipermIndex d) = d := permEquiv.apply_symm_apply d

/-- A codeword has one interleaved form: every position is `PERM[k]` for some `k` (R93). -/
theorem Interleaves.unique {c w w' : BitSeq 162} (h : Interleaves c w) (h' : Interleaves c w') : w = w' := by
  ext i hi
  have hget := (h.get_permIndex (ipermIndex ⟨i, hi⟩)).trans (h'.get_permIndex (ipermIndex ⟨i, hi⟩)).symm
  rwa [permIndex_ipermIndex] at hget

/-- An interleaved word is that of one codeword (R90). -/
theorem Interleaves.codeword_unique {c c' w : BitSeq 162} (h : Interleaves c w) (h' : Interleaves c' w) : c = c' := by
  ext i hi
  exact (h.get_permIndex ⟨i, hi⟩).symm.trans (h'.get_permIndex ⟨i, hi⟩)

/-! ### The response -/

section
variable {p : Params} {r : Request}

/-- A callsign that does not pack is answered with InvalidCallsign (R99). -/
theorem encodeRequest_of_callsign_error (hc : ∃ e, callsignField p.digitScan r.callsign = .error e) :
    encodeRequest p r = .err .invalidCallsign := by
  obtain ⟨e, hc⟩ := hc
  have hpack : (Txn.start r).pack p = .error .invalidCallsign := by simpa [hc] using (Txn.start r).pack_cases p
  rw [encodeRequest, hpack]

/-- Behind a callsign that packs, a locator that does not is answered with InvalidGrid (R99). -/
theorem encodeRequest_of_locator_error (hc : ∃ field, callsignField p.digitScan r.callsign = .ok field)
    (hl : ∃ e, locatorField r.locator = .error e) : encodeRequest p r = .err .invalidGrid := by
  obtain ⟨field, hc⟩ := hc
  obtain ⟨e, hl⟩ := hl
  have hpack : (Txn.start r).pack p = .error .invalidGrid := by simpa [hc, hl] using (Txn.start r).pack_cases p
  rw [encodeRequest, hpack]

/-- Behind a callsign and a locator that pack, a power that does not is answered with InvalidPower (R99). -/
theorem encodeRequest_of_power_error (hc : ∃ field, callsignField p.digitScan r.callsign = .ok field)
    (hl : ∃ l, locatorField r.locator = .ok l) (hq : ∃ e, powerField r.power = .error e) :
    encodeRequest p r = .err .invalidPower := by
  obtain ⟨field, hc⟩ := hc
  obtain ⟨l, hl⟩ := hl
  obtain ⟨e, hq⟩ := hq
  have hpack : (Txn.start r).pack p = .error .invalidPower := by
    simpa [hc, hl, hq] using (Txn.start r).pack_cases p
  rw [encodeRequest, hpack]

/-- Three fields that pack are answered with the interleaved codeword of the message, merged with the sync
vector (R98). -/
theorem encodeRequest_of_ok {call6 : Vector Octet 6} {n : BitVec 28} {l : BitVec 15} {q : BitVec 7} {w : BitSeq 162}
    (hc : callsignField p.digitScan r.callsign = .ok (call6, n)) (hl : locatorField r.locator = .ok l)
    (hq : powerField r.power = .ok q) (hw : Interleaves (codewordOf p (encoderInput (messageWord n l q))) w) :
    encodeRequest p r = .ok (Vector.zipWith symbolOf w p.sync) := by
  have hpack : (Txn.start r).pack p =
      .ok { Txn.start r with call6 := call6, nField := n, lField := l, pField := q } := by
    simpa [hc, hl, hq] using (Txn.start r).pack_cases p
  rw [encodeRequest, hpack]
  simp only [Txn.transmit_symbols]
  rw [hw.unique (interleaves_scatter _ _)]

/-- The `ok` responses are those that the rules of the stages, read as a relation, give (R98). -/
theorem encodes_iff_encodeRequest {symbols : Vector Symbol 162} :
    Encodes p r symbols ↔ encodeRequest p r = .ok symbols := by
  constructor
  · rintro ⟨call6, n, l, q, w, hc, hl, hq, hw, hsymbols⟩
    rw [encodeRequest_of_ok hc hl hq hw]
    congr 1
    ext i hi
    rw [Vector.getElem_zipWith, symbolOf_val]
    exact (hsymbols ⟨i, hi⟩).symm
  · intro hok
    obtain ⟨call6, n, l, q, hc, hl, hq, -⟩ | ⟨hc, -⟩ | ⟨hc, hl, -⟩ | ⟨hc, hl, hq, -⟩ := (Txn.start r).pack_cases p
    · have hw := interleaves_scatter (codewordOf p (encoderInput (messageWord n l q))) Txn.idle.interleaved
      cases (encodeRequest_of_ok hc hl hq hw).symm.trans hok
      refine ⟨call6, n, l, q, _, hc, hl, hq, hw, fun i => ?_⟩
      rw [Vector.get_eq_getElem, Vector.getElem_zipWith]
      exact symbolOf_val _ _
    · cases (encodeRequest_of_callsign_error hc).symm.trans hok
    · cases (encodeRequest_of_locator_error hc hl).symm.trans hok
    · cases (encodeRequest_of_power_error hc hl hq).symm.trans hok

/-- A valid request is answered with symbols (R98). -/
theorem encodeRequest_of_valid (hscan : p.digitScan = .firstDigit) (hr : ValidRequest r) :
    ∃ symbols, encodeRequest p r = .ok symbols := by
  obtain ⟨hcall, hloc, hpow⟩ := hr
  obtain ⟨⟨call6, n⟩, hc⟩ := validCallsign_iff_ok.mp hcall
  obtain ⟨l, hl⟩ := validLocator_iff_ok.mp hloc
  obtain ⟨q, hq⟩ := validPower_iff_ok.mp hpow
  exact ⟨_, encodeRequest_of_ok (hscan ▸ hc) hl hq (interleaves_scatter _ Txn.idle.interleaved)⟩

end

end Sys2Proof.Machine

/-! PROOFS. Family 10: the steps of the sequencer, and what every step keeps (R22, R30, R104). -/

namespace Sys2Proof.Machine

/-! ### The operations' outcomes -/

/-- CONV_ENCODE completes in every state, by updating the transaction's storage alone (R84). -/
theorem exec_convEncode (s : State) : exec .convEncode s = .next { s with txn := s.txn.convEncode hardware } := rfl

/-- CONV_STEP completes where a step index is left (R82). -/
theorem exec_convStep_of_lt {s : State} (h : s.txn.k.val < 81) :
    exec .convStep s = .next { s with txn := s.txn.convStep hardware ⟨s.txn.k.val, h⟩ } := dif_pos h

/-- CONV_STEP stops at `k` = 81 (log entry 7). -/
theorem exec_convStep_of_eq {s : State} (h : s.txn.k = 81) : exec .convStep s = .fault .convIndexOutOfRange :=
  dif_neg (by rw [h]; decide)

/-- The step counter is 81 or a step index (R27). -/
theorem Txn.k_cases (t : Txn) : t.k = 81 ∨ t.k.val < 81 := by
  rw [Fin.ext_iff, show (81 : Fin 82).val = 81 from rfl]
  omega

/-! ### What follows an operation -/

section
variable {s : State} (h : s.txn.stage ≠ .done)
include h

/-- After PACK_CALLSIGN comes PACK_LOCATOR (R104). -/
theorem State.advance_packCallsign :
    s.advance .packCallsign = { s with op := 2, txn := { s.txn with stage := .pack } } := if_neg h

/-- After PACK_LOCATOR comes PACK_POWER (R104). -/
theorem State.advance_packLocator :
    s.advance .packLocator = { s with op := 3, txn := { s.txn with stage := .pack } } := if_neg h

/-- After PACK_POWER comes ASSEMBLE (R104). -/
theorem State.advance_packPower :
    s.advance .packPower = { s with op := 4, txn := { s.txn with stage := .assemble } } := if_neg h

/-- After ASSEMBLE the encoder starts, with its register and its counter cleared (R104, R121). -/
theorem State.advance_assemble :
    s.advance .assemble = { s with op := 5, txn := { s.txn with stage := .conv, sr := 0, k := 0 } } := if_neg h

/-- CONV_ENCODE leaves the block in its stage (log entry 6). -/
theorem State.advance_convEncode :
    s.advance .convEncode = { s with op := 5, txn := { s.txn with stage := .conv } } := if_neg h

/-- After INTERLEAVE comes MERGE_SYNC (R104). -/
theorem State.advance_interleave :
    s.advance .interleave = { s with op := 8, txn := { s.txn with stage := .merge } } := if_neg h

/-- MERGE_SYNC ends the transaction with its symbols (R104). -/
theorem State.advance_mergeSync : s.advance .mergeSync = s.respond (.ok s.txn.symbols) := if_neg h

/-- After ENCODE the sequencer has nothing to do (R98). -/
theorem State.advance_encode (r : Request) : s.advance (.encode r) = s := if_neg h

end

/-! ### Single steps -/

/-- A stage of a transaction carries no request record (R42). -/
theorem decode_stage {i : Instr} (hi : ∀ r, i ≠ .encode r) (requests : List Request) :
    decode i.opId requests = .ok (i, requests) := by
  cases i with
  | encode r => exact absurd rfl (hi r)
  | _ => rfl

/-- Settles O10: outside the two cases of the sequencer's own the fetch answers the decoded operation. -/
theorem stepRunsTheDecodedOperation : Obligations.StepRunsTheDecodedOperation := by
  intro s i rest hd hconv hdec hform
  have hc : s.convDone = false := Bool.eq_false_iff.mpr fun h => hconv (s.convDone_iff.mp h)
  have hfetch : s.fetch = .run i { s with requests := rest } := by
    cases i with
    | encode r =>
      have hs : s.stepping = .atomic := hform.resolve_right fun h => h r rfl
      simp [State.fetch, hd, hc, hdec, hs]
    | _ => simp [State.fetch, hd, hc, hdec]
  cases hexec : exec i { s with requests := rest } <;> simp only [step, hfetch, hexec]

/-- A decoded operation that completes is followed by the sequencer's advance. -/
theorem step_of_decode {s u : State} {i : Instr} {rest : List Request} (hd : s.txn.stage ≠ .done)
    (hc : s.convDone = false) (hdec : decode s.op s.requests = .ok (i, rest))
    (hform : s.stepping = .atomic ∨ ∀ r, i ≠ .encode r) (hexec : exec i { s with requests := rest } = .next u) :
    step s = .next (u.advance i) := by
  have hconv := fun h => Bool.eq_false_iff.mp hc (s.convDone_iff.mpr h)
  rw [stepRunsTheDecodedOperation s i rest hd hconv hdec hform, hexec]

/-- A stage that completes is followed by the sequencer's advance. -/
theorem step_of_exec {s u t : State} (i : Instr) (hd : s.txn.stage ≠ .done) (hc : s.convDone = false)
    (hop : s.op = i.opId) (hi : ∀ r, i ≠ .encode r) (hexec : exec i s = .next u) (hadvance : u.advance i = t) :
    step s = .next t :=
  hadvance ▸ step_of_decode hd hc (hop ▸ decode_stage hi s.requests) (.inr hi) hexec

/-- A finished transaction is discarded (R27, R105). -/
theorem step_of_done {s : State} (h : s.txn.stage = .done) : step s = .next s.discard := by
  rw [step, State.fetch, if_pos h]

/-- The encoder's stage is left once `k` is 81 (R104). -/
theorem step_of_convDone {s : State} (hstage : s.txn.stage = .conv) (hop : s.op = Instr.convStep.opId)
    (hk : s.txn.k = 81) : step s = .next (s.enter .interleave .interleave) := by
  have hc : s.convDone = true := s.convDone_iff.mpr ⟨hstage, hop, hk⟩
  simp [step, State.fetch, hstage, hc]

section
variable {s : State} (hd : s.txn.stage ≠ .done) (hop : s.op = 0)
include hd hop

/-- With ENCODE next and no request the block waits (R19). -/
theorem step_of_no_request (hreq : s.requests = []) : step s = .next s := by
  have hc : s.convDone = false := State.convDone_of_op (hop ▸ by decide)
  simp [step, State.fetch, hd, hc, hop, hreq]

/-- With ENCODE next the small-step form takes the oldest request and begins its transaction (R104). -/
theorem step_of_staged_request {r : Request} {rest : List Request} (hform : s.stepping = .staged)
    (hreq : s.requests = r :: rest) : step s = .next (State.begin { s with requests := rest } r) := by
  have hc : s.convDone = false := State.convDone_of_op (hop ▸ by decide)
  simp [step, State.fetch, hd, hc, hop, hreq, hform]

end

section
variable {s : State} (h : s.Idle)
include h

/-- An idle block has no transaction to finish. -/
theorem State.Idle.stage_ne_done : s.txn.stage ≠ .done := by
  rw [h.2]
  decide

/-- An idle block in the atomic form answers the oldest request (R19). -/
theorem State.Idle.step_atomic {r : Request} {rest : List Request} (hform : s.stepping = .atomic)
    (hreq : s.requests = r :: rest) :
    step s = .next { s with requests := rest, responses := s.responses ++ [encodeRequest hardware r] } := by
  obtain ⟨hop, htxn⟩ := id h
  have hdec : decode s.op s.requests = .ok (.encode r, rest) := by rw [hop, hreq]; rfl
  rw [step_of_decode h.stage_ne_done (State.convDone_of_op (hop ▸ by decide)) hdec (.inl hform) (exec_encode r _),
    State.advance_encode (s := State.discard _) nofun, State.discard, ← hop, ← htxn]
  rfl

end

/-- Settles O11: the step that leaves the encoder's stage, and one equation for each operation. -/
theorem sequencerFollowsTheStages : Obligations.SequencerFollowsTheStages := by
  refine ⟨fun s hstage hop hk => step_of_convDone hstage hop hk, fun s h => ⟨s.advance_encode h, s.advance_packCallsign h,
    s.advance_packLocator h, s.advance_packPower h, s.advance_assemble h, fun k hk => ?_, s.advance_convEncode h,
    s.advance_interleave h, s.advance_mergeSync h⟩⟩
  have hval : s.txn.k.val = k.val := congrArg Fin.val hk
  rw [s.advance_convStep h (hval ▸ k.isLt)]
  simp only [hval, Fin.succ]

/-! ### The transaction in progress -/

section
variable {s : State} {u : Txn}

/-- A stage that ends the transaction delivers the response of R98. -/
theorem State.Progress.of_respond {response : Response} (hu : u.request = s.txn.request)
    (hresponse : encodeRequest hardware s.txn.request = response) (hleft : 1 < s.stepsLeft) :
    s.Progress (State.respond { s with txn := u } response) where
  coherent := by simp [State.Coherent, hu, hresponse]
  requests := rfl
  stepping := rfl
  request := hu
  stepsLeft := hleft
  outcome := .inr ⟨rfl, by rw [hresponse]; rfl⟩

/-- A stage that does not end the transaction writes the storage and selects the next operation. -/
theorem State.Progress.of_txn {op : OpId} (hu : u.request = s.txn.request)
    (hcoherent : State.Coherent { s with op := op, txn := u }) (hstage : u.stage ≠ .done) (hop : op ≠ 0)
    (hleft : State.stepsLeft { s with op := op, txn := u } < s.stepsLeft) : s.Progress { s with op := op, txn := u } where
  coherent := hcoherent
  requests := rfl
  stepping := rfl
  request := hu
  stepsLeft := hleft
  outcome := .inl ⟨hstage, hop, rfl⟩

/-- PACK_CALLSIGN is next: it packs the callsign, or it ends the transaction with InvalidCallsign (R56). -/
theorem State.progress_packCallsign (hstage : s.txn.stage = .pack) (hop : s.op = 1) :
    ∃ t, step s = .next t ∧ s.Progress t := by
  have hd : s.txn.stage ≠ .done := hstage ▸ by decide
  have hc : s.convDone = false := State.convDone_of_op (hop ▸ by decide)
  obtain ⟨call6, n, hok, hexec⟩ | ⟨herr, hexec⟩ := execPackCallsign_cases s
  · exact ⟨_, step_of_exec .packCallsign hd hc hop nofun hexec (State.advance_packCallsign hd),
      .of_txn rfl (.inr (.inr (.inl ⟨rfl, hok⟩))) nofun nofun (by simp [State.stepsLeft, hstage, hop])⟩
  · exact ⟨_, step_of_exec .packCallsign hd hc hop nofun hexec (State.advance_done _ _ rfl),
      .of_respond rfl (encodeRequest_of_callsign_error herr) (by simp [State.stepsLeft, hstage, hop])⟩

/-- PACK_LOCATOR is next: it packs the locator, or it ends the transaction with InvalidGrid (R65). -/
theorem State.progress_packLocator (hstage : s.txn.stage = .pack) (hop : s.op = 2) (hcall : s.txn.CallsignPacked) :
    ∃ t, step s = .next t ∧ s.Progress t := by
  have hd : s.txn.stage ≠ .done := hstage ▸ by decide
  have hc : s.convDone = false := State.convDone_of_op (hop ▸ by decide)
  obtain ⟨l, hok, hexec⟩ | ⟨herr, hexec⟩ := execPackLocator_cases s
  · exact ⟨_, step_of_exec .packLocator hd hc hop nofun hexec (State.advance_packLocator hd),
      .of_txn rfl (.inr (.inr (.inr ⟨rfl, hcall, hok⟩))) nofun nofun (by simp [State.stepsLeft, hstage, hop])⟩
  · exact ⟨_, step_of_exec .packLocator hd hc hop nofun hexec (State.advance_done _ _ rfl),
      .of_respond rfl (encodeRequest_of_locator_error ⟨_, hcall⟩ herr) (by simp [State.stepsLeft, hstage, hop])⟩

/-- PACK_POWER is next: it packs the power, or it ends the transaction with InvalidPower (R70). -/
theorem State.progress_packPower (hstage : s.txn.stage = .pack) (hop : s.op = 3) (hcall : s.txn.CallsignPacked)
    (hloc : s.txn.LocatorPacked) : ∃ t, step s = .next t ∧ s.Progress t := by
  have hd : s.txn.stage ≠ .done := hstage ▸ by decide
  have hc : s.convDone = false := State.convDone_of_op (hop ▸ by decide)
  obtain ⟨q, hok, hexec⟩ | ⟨herr, hexec⟩ := execPackPower_cases s
  · exact ⟨_, step_of_exec .packPower hd hc hop nofun hexec (State.advance_packPower hd),
      .of_txn rfl ⟨rfl, hcall, hloc, hok⟩ nofun nofun (by simp [State.stepsLeft, hstage, hop])⟩
  · exact ⟨_, step_of_exec .packPower hd hc hop nofun hexec (State.advance_done _ _ rfl),
      .of_respond rfl (encodeRequest_of_power_error ⟨_, hcall⟩ ⟨_, hloc⟩ herr) (by simp [State.stepsLeft, hstage, hop])⟩

/-- ASSEMBLE is next: the encoder starts on the input of the packed fields (R77, R121). -/
theorem State.progress_assemble (hstage : s.txn.stage = .assemble) (hop : s.op = 4) (hpacked : s.txn.Packed) :
    ∃ t, step s = .next t ∧ s.Progress t := by
  have hd : s.txn.stage ≠ .done := hstage ▸ by decide
  have hc : s.convDone = false := State.convDone_of_op (hop ▸ by decide)
  refine ⟨_, step_of_exec .assemble hd hc hop nofun (exec_assemble s) (State.advance_assemble hd), ?_⟩
  obtain ⟨hstart, -⟩ := Txn.convTurns_partlyEncoded hardware { s.txn.assemble with stage := .conv, sr := 0, k := 0 } rfl rfl
    0 (Nat.zero_le _)
  exact .of_txn rfl ⟨rfl, ⟨hpacked, rfl, rfl⟩, hstart⟩ nofun nofun (by simp [State.stepsLeft, hstage])

/-- CONV_STEP is next at a step index: it gives the closed form's pair and counts on (R82, R104). -/
theorem State.progress_convStep (hstage : s.txn.stage = .conv) (hop : s.op = 5) (hk : s.txn.k.val < 81)
    (hassembled : s.txn.Assembled) (hpart : s.txn.PartlyEncoded hardware) : ∃ t, step s = .next t ∧ s.Progress t := by
  have hd : s.txn.stage ≠ .done := hstage ▸ by decide
  have hadvance := State.advance_convStep { s with txn := s.txn.convStep hardware ⟨s.txn.k.val, hk⟩ } hd hk
  refine ⟨_, step_of_exec .convStep hd (State.convDone_of_lt hk) hop nofun (exec_convStep_of_lt hk) hadvance, ?_⟩
  exact .of_txn rfl ⟨rfl, hassembled, hpart.convTurn (k := ⟨s.txn.k.val, hk⟩) rfl⟩ nofun nofun
    (by simp [State.stepsLeft, hstage]; omega)

/-- After the last CONV_STEP the codeword is the closed form's (R86, R87). -/
theorem Txn.PartlyEncoded.encoded {t : Txn} (h : t.PartlyEncoded hardware) (hk : t.k = 81) : t.Encoded := by
  obtain ⟨-, hcodeword⟩ := h
  have hval : t.k.val = 81 := congrArg Fin.val hk
  refine ⟨hval, ?_⟩
  ext i hi
  exact hcodeword ⟨i, hi⟩ (by rw [hval]; exact hi)

/-- The last CONV_STEP is behind: the block goes on to INTERLEAVE (R104). -/
theorem State.progress_leaveConv (hstage : s.txn.stage = .conv) (hop : s.op = 5) (hk : s.txn.k = 81)
    (hassembled : s.txn.Assembled) (hpart : s.txn.PartlyEncoded hardware) : ∃ t, step s = .next t ∧ s.Progress t := by
  exact ⟨_, step_of_convDone hstage hop hk,
    .of_txn rfl ⟨rfl, hassembled, hpart.encoded hk⟩ nofun nofun (by simp [State.stepsLeft, hstage, hk])⟩

/-- INTERLEAVE is next: it makes the interleaved form of the codeword (R90). -/
theorem State.progress_interleave (hstage : s.txn.stage = .interleave) (hop : s.op = 7) (hassembled : s.txn.Assembled)
    (hencoded : s.txn.Encoded) : ∃ t, step s = .next t ∧ s.Progress t := by
  have hd : s.txn.stage ≠ .done := hstage ▸ by decide
  have hc : s.convDone = false := State.convDone_of_op (hop ▸ by decide)
  refine ⟨_, step_of_exec .interleave hd hc hop nofun (exec_interleave s) (State.advance_interleave hd), ?_⟩
  exact .of_txn rfl ⟨rfl, hassembled, hencoded, interleaves_scatter _ _⟩ nofun nofun (by simp [State.stepsLeft, hstage])

/-- MERGE_SYNC is next: it ends the transaction with the symbols of R98. -/
theorem State.progress_mergeSync (hstage : s.txn.stage = .merge) (hop : s.op = 8) (hassembled : s.txn.Assembled)
    (hencoded : s.txn.Encoded) (hinterleaved : Interleaves s.txn.codeword s.txn.interleaved) :
    ∃ t, step s = .next t ∧ s.Progress t := by
  have hd : s.txn.stage ≠ .done := hstage ▸ by decide
  have hc : s.convDone = false := State.convDone_of_op (hop ▸ by decide)
  obtain ⟨⟨hcall, hloc, hpow⟩, hword, hinput⟩ := hassembled
  obtain ⟨-, hcodeword⟩ := hencoded
  rw [hcodeword, hinput, hword] at hinterleaved
  refine ⟨_, step_of_exec .mergeSync hd hc hop nofun (exec_mergeSync s) (State.advance_mergeSync hd), ?_⟩
  exact .of_respond rfl (encodeRequest_of_ok hcall hloc hpow hinterleaved) (by simp [State.stepsLeft, hstage])

/-- A coherent block is done, idle, or has a transaction in progress. -/
theorem State.Coherent.cases (h : s.Coherent) :
    s.txn.stage = .done ∨ s.Idle ∨ s.txn.stage ≠ .done ∧ s.op ≠ 0 := by
  by_cases hd : s.txn.stage = .done
  · exact .inl hd
  refine .inr (or_iff_not_imp_left.mpr fun hidle => ⟨hd, fun hop => ?_⟩)
  unfold State.Coherent at h
  cases hstage : s.txn.stage <;> simp [hstage, hop, hidle] at h hd

/-- Every step of a coherent block's transaction goes on with it (R104). -/
theorem State.Coherent.progress (h : s.Coherent) (hd : s.txn.stage ≠ .done) (hop : s.op ≠ 0) :
    ∃ t, step s = .next t ∧ s.Progress t := by
  unfold State.Coherent at h
  cases hstage : s.txn.stage <;> rw [hstage] at h <;> dsimp only at h
  case pack =>
    obtain ⟨hidle, -⟩ | ⟨hop, -⟩ | ⟨hop, hcall⟩ | ⟨hop, hcall, hloc⟩ := h
    · exact absurd hidle hop
    · exact progress_packCallsign hstage hop
    · exact progress_packLocator hstage hop hcall
    · exact progress_packPower hstage hop hcall hloc
  case assemble =>
    obtain ⟨hop, hpacked⟩ := h
    exact progress_assemble hstage hop hpacked
  case conv =>
    obtain ⟨hop, hassembled, hpart⟩ := h
    obtain hk | hk := s.txn.k_cases
    · exact progress_leaveConv hstage hop hk hassembled hpart
    · exact progress_convStep hstage hop hk hassembled hpart
  case interleave =>
    obtain ⟨hop, hassembled, hencoded⟩ := h
    exact progress_interleave hstage hop hassembled hencoded
  case merge =>
    obtain ⟨hop, hassembled, hencoded, hinterleaved⟩ := h
    exact progress_mergeSync hstage hop hassembled hencoded hinterleaved
  case done => exact absurd hstage hd

end

end Sys2Proof.Machine

/-! PROOFS. Family 10: the invariants of a run, and the two forms of R22 (R19, R22, R103, R104). -/

namespace Sys2Proof.Machine

/-! ### The invariant -/

/-- Discarding leaves an idle block (R27, R110). -/
theorem State.discard_idle (s : State) : s.discard.Idle := ⟨rfl, rfl⟩

/-- An idle block is coherent. -/
theorem State.Idle.coherent {s : State} (h : s.Idle) : s.Coherent := by
  simp only [State.Coherent, h.2, Txn.idle_stage]
  exact .inl h

/-- A transaction that begins is coherent (R30, R104). -/
theorem State.begin_coherent (s : State) (r : Request) : (s.begin r).Coherent := .inr (.inl ⟨rfl, rfl⟩)

/-- Every step of a coherent block: a finished transaction is discarded; an idle block waits, begins a transaction or answers
a request; a transaction in progress goes on. -/
theorem State.Coherent.step_cases {s t : State} (h : s.Coherent) (hstep : step s = .next t) :
    (s.txn.stage = .done ∧ t = s.discard) ∨ (s.Idle ∧ t = s) ∨
    (∃ r rest, s.Idle ∧ s.requests = r :: rest ∧ t = State.begin { s with requests := rest } r) ∨
    (∃ r rest, s.Idle ∧ s.requests = r :: rest ∧
      t = { s with requests := rest, responses := s.responses ++ [encodeRequest hardware r] }) ∨
    (s.txn.stage ≠ .done ∧ s.op ≠ 0 ∧ s.Progress t) := by
  obtain hd | hidle | ⟨hd, hop⟩ := h.cases
  · cases (step_of_done hd).symm.trans hstep
    exact .inl ⟨hd, rfl⟩
  · refine .inr ?_
    cases hreq : s.requests with
    | nil =>
      cases (step_of_no_request hidle.stage_ne_done hidle.1 hreq).symm.trans hstep
      exact .inl ⟨hidle, rfl⟩
    | cons r rest =>
      cases hform : s.stepping with
      | staged =>
        cases (step_of_staged_request hidle.stage_ne_done hidle.1 hform hreq).symm.trans hstep
        exact .inr (.inl ⟨r, rest, hidle, rfl, by rw [hform]⟩)
      | atomic =>
        cases (hidle.step_atomic hform hreq).symm.trans hstep
        exact .inr (.inr (.inl ⟨r, rest, hidle, rfl, by rw [hform]⟩))
  · obtain ⟨u, hu, hprogress⟩ := h.progress hd hop
    cases hu.symm.trans hstep
    exact .inr (.inr (.inr (.inr ⟨hd, hop, hprogress⟩)))

/-- Settles O52, by the cases of a coherent block's step. -/
theorem stepKeepsCoherence : Obligations.StepKeepsCoherence := by
  intro s t h hstep
  obtain ⟨-, rfl⟩ | ⟨-, rfl⟩ | ⟨r, rest, -, -, rfl⟩ | ⟨r, rest, hidle, -, rfl⟩ | ⟨-, -, hprogress⟩ := h.step_cases hstep
  · exact s.discard_idle.coherent
  · exact h
  · exact State.begin_coherent _ r
  · exact State.Idle.coherent hidle
  · exact hprogress.coherent

/-- Settles O53: the state after reset is idle and has delivered nothing. -/
theorem resetMeetsTheInvariants : Obligations.ResetMeetsTheInvariants :=
  ⟨fun _ h => absurd h List.not_mem_nil, fun _ => State.Idle.coherent ⟨rfl, rfl⟩⟩

/-! ### Every transaction ends, with its request answered once -/

/-- A transaction has at most 90 steps (R103). -/
theorem State.stepsLeft_le (s : State) : s.stepsLeft ≤ 90 := by
  unfold State.stepsLeft
  split <;> omega

/-- Settles O57: a finished transaction is discarded, and one in progress goes on with fewer steps left. -/
theorem transactionsEnd : Obligations.TransactionsEnd := by
  intro s h hidle
  obtain hd | hidle' | ⟨hd, hop⟩ := h.cases
  · exact ⟨_, step_of_done hd, .inl s.discard_idle, s.stepsLeft_le⟩
  · exact absurd hidle' hidle
  · obtain ⟨t, hstep, hprogress⟩ := h.progress hd hop
    exact ⟨t, hstep, .inr hprogress.stepsLeft, s.stepsLeft_le⟩

/-- No request is being answered once the transaction is over. -/
theorem State.unanswered_of_done {s : State} (h : s.txn.stage = .done) : s.unanswered = 0 := if_neg fun hs => hs.1 h

/-- No request is being answered by an idle block. -/
theorem State.Idle.unanswered_eq {s : State} (h : s.Idle) : s.unanswered = 0 := if_neg fun hs => hs.2 h.1

/-- One request is being answered while a transaction is in progress. -/
theorem State.unanswered_of_progress {s : State} (hd : s.txn.stage ≠ .done) (hop : s.op ≠ 0) : s.unanswered = 1 :=
  if_pos ⟨hd, hop⟩

/-- Settles O55, by the cases of a coherent block's step: a request leaves the queue as it becomes the one in progress, or is
answered at once, and the one in progress leaves it with its response. -/
theorem eachRequestIsAnsweredOnce : Obligations.EachRequestIsAnsweredOnce := by
  intro s t h hstep
  obtain ⟨hd, rfl⟩ | ⟨-, rfl⟩ | ⟨r, rest, hidle, hreq, rfl⟩ | ⟨r, rest, hidle, hreq, rfl⟩ | ⟨hd, hop, hprogress⟩ :=
    h.step_cases hstep
  · rw [s.discard_idle.unanswered_eq, State.unanswered_of_done hd]
    exact ⟨rfl, .inl rfl, .inl rfl⟩
  · exact ⟨rfl, .inl rfl, .inl rfl⟩
  · have hbegun : (State.begin { s with requests := rest } r).unanswered = 1 :=
      State.unanswered_of_progress nofun nofun
    rw [hidle.unanswered_eq, hbegun, hreq]
    exact ⟨rfl, .inr ⟨r, rfl⟩, .inl rfl⟩
  · have hanswered : State.unanswered
        { s with requests := rest, responses := s.responses ++ [encodeRequest hardware r] } = 0 :=
      State.Idle.unanswered_eq hidle
    rw [hidle.unanswered_eq, hanswered, hreq]
    refine ⟨?_, .inr ⟨r, rfl⟩, .inr ⟨_, rfl⟩⟩
    simp only [List.length_append, List.length_cons, List.length_nil]
    omega
  · refine ⟨?_, .inl hprogress.requests, ?_⟩
    all_goals obtain ⟨hd', hop', hresponses⟩ | ⟨hd', hresponses⟩ := hprogress.outcome
    · rw [State.unanswered_of_progress hd hop, State.unanswered_of_progress hd' hop', hprogress.requests, hresponses]
    · rw [State.unanswered_of_progress hd hop, State.unanswered_of_done hd', hprogress.requests, hresponses,
        List.length_append, List.length_singleton]
      omega
    · exact .inl hresponses
    · exact .inr ⟨_, hresponses⟩

/-! ### The two forms -/

/-- Discarding forgets all but the requests, the responses and the form. -/
theorem State.discard_congr {s t : State} (hrequests : s.requests = t.requests) (hresponses : s.responses = t.responses)
    (hstepping : s.stepping = t.stepping) : s.discard = t.discard := by
  rw [State.discard, State.discard, hrequests, hresponses, hstepping]

/-- A transaction in progress is run to its end in at most the steps it has left, and its request is then answered (R98,
R103). -/
theorem run_to_end {s : State} (h : s.Coherent) (hd : s.txn.stage ≠ .done) (hop : s.op ≠ 0) :
    ∃ n, n ≤ s.stepsLeft ∧ Sys2Proof.core.run n s =
      .next (s.respond (encodeRequest hardware s.txn.request)).discard := by
  induction hleft : s.stepsLeft using Nat.strong_induction_on generalizing s with
  | _ left ih =>
    subst hleft
    obtain ⟨t, hstep, hprogress⟩ := h.progress hd hop
    have hless := hprogress.stepsLeft
    obtain ⟨hd', hop', hresponses⟩ | ⟨hd', hresponses⟩ := hprogress.outcome
    · obtain ⟨n, hn, hrun⟩ := ih _ hless hprogress.coherent hd' hop' rfl
      refine ⟨n + 1, by omega, ?_⟩
      rw [run_succ n hstep, hrun, hprogress.request]
      exact congrArg _ (State.discard_congr hprogress.requests (by simp [hresponses]) hprogress.stepping)
    · have hdone : t.stepsLeft = 1 := by simp [State.stepsLeft, hd']
      refine ⟨2, by omega, ?_⟩
      rw [run_succ 1 hstep, run_succ 0 (step_of_done hd'), run_zero]
      exact congrArg _ (State.discard_congr hprogress.requests hresponses hprogress.stepping)

/-- Settles O51: the step that takes the request, the run of its transaction, and the one step of the atomic form. -/
theorem stagedFormGivesTheAtomicResult : Obligations.StagedFormGivesTheAtomicResult := by
  intro s r rest hidle hform hreq
  obtain ⟨n, hn, hrun⟩ := run_to_end (State.begin_coherent { s with requests := rest } r) nofun nofun
  have hleft : (State.begin { s with requests := rest } r).stepsLeft = 89 := rfl
  refine ⟨n + 1, _, by omega, (run_succ n (step_of_staged_request hidle.stage_ne_done hidle.1 hform hreq)).trans hrun,
    hform, ?_, rfl⟩
  have hatomic : State.Idle { s with stepping := .atomic } := hidle
  rw [hatomic.step_atomic rfl hreq]
  simp only [State.discard, ← hidle.1, ← hidle.2]
  rfl

end Sys2Proof.Machine

/-! PROOFS. Family 10: what the operations leave unchanged, and what a step cannot do (R13, R27, R53, R107, R115). -/

namespace Sys2Proof.Machine

/-! ### Frames -/

/-- Settles O58: each packing stage writes its own fields or raises. -/
theorem packingStagesFrame : Obligations.PackingStagesFrame := by
  rintro s t i (rfl | rfl | rfl) hexec
  · obtain ⟨call6, n, -, h⟩ | ⟨-, h⟩ := execPackCallsign_cases s <;> cases h.symm.trans hexec <;> simp
  · obtain ⟨l, -, h⟩ | ⟨-, h⟩ := execPackLocator_cases s <;> cases h.symm.trans hexec <;> simp
  · obtain ⟨q, -, h⟩ | ⟨-, h⟩ := execPackPower_cases s <;> cases h.symm.trans hexec <;> simp

/-- CONV_STEP that completes has run at a step index (R82). -/
theorem execConvStep_next {s t : State} (h : exec .convStep s = .next t) :
    ∃ k, t = { s with txn := s.txn.convStep hardware k } := by
  obtain hk | hk := s.txn.k_cases
  · cases (exec_convStep_of_eq hk).symm.trans h
  · cases (exec_convStep_of_lt hk).symm.trans h
    exact ⟨_, rfl⟩

/-- Settles O59, by the storage that each stage writes. -/
theorem laterStagesFrame : Obligations.LaterStagesFrame := by
  rintro s t i (rfl | rfl | rfl | rfl | rfl) hexec
  · cases (exec_assemble s).symm.trans hexec
    simp
  · obtain ⟨k, rfl⟩ := execConvStep_next hexec
    simp
  · cases (exec_convEncode s).symm.trans hexec
    rw [Txn.convEncode_eq]
    simp
  · cases (exec_interleave s).symm.trans hexec
    simp
  · cases (exec_mergeSync s).symm.trans hexec
    simp

/-- Settles O60: ENCODE is a delivery and a discard. -/
theorem encodeFrame : Obligations.EncodeFrame := by
  intro s t r hexec
  cases (exec_encode r s).symm.trans hexec
  simp

/-! ### The sync bits -/

/-- Every symbol that MERGE_SYNC makes carries the sync bit of its index (R95, R97). -/
theorem Txn.mergeSync_low_bit (p : Params) (t : Txn) (i : Fin 162) :
    ((t.mergeSync p).symbols.get i).val % 2 = (p.sync.get i).toNat := by
  rw [Txn.mergeSync_get, symbolOf_mod_two]

/-- The symbols of an `ok` response are MERGE_SYNC's (R98). -/
theorem encodeRequest_ok_eq {p : Params} {r : Request} {symbols : Vector Symbol 162}
    (h : encodeRequest p r = .ok symbols) : ∃ t : Txn, symbols = (t.mergeSync p).symbols := by
  unfold encodeRequest at h
  split at h
  · cases h
    exact ⟨_, rfl⟩
  · cases h

/-- What an operation can deliver: nothing, an error, or MERGE_SYNC's symbols (R13, R98). -/
theorem exec_responses {s t : State} {i : Instr} (h : exec i s = .next t) :
    t.responses = s.responses ∨ (∃ e, t.responses = s.responses ++ [.err e]) ∨
      ∃ u : Txn, t.responses = s.responses ++ [.ok (u.mergeSync hardware).symbols] := by
  have hpacking (hi : i = .packCallsign ∨ i = .packLocator ∨ i = .packPower) :
      t.responses = s.responses ∨ ∃ e, t.responses = s.responses ++ [.err e] := by
    obtain ⟨-, -, -, -, -, -, -, -, -, -, -, -, -, -, houtcome⟩ := packingStagesFrame s t i hi h
    exact houtcome.imp (fun hok => hok.1) fun ⟨e, he, _⟩ => ⟨e, he⟩
  have hlater (hi : i = .assemble ∨ i = .convStep ∨ i = .convEncode ∨ i = .interleave ∨ i = .mergeSync) :
      t.responses = s.responses := (laterStagesFrame s t i hi h).2.1
  cases i with
  | encode r =>
    cases (exec_encode r s).symm.trans h
    refine .inr ?_
    cases hresponse : encodeRequest hardware r with
    | err e => exact .inl ⟨e, rfl⟩
    | ok symbols =>
      obtain ⟨u, rfl⟩ := encodeRequest_ok_eq hresponse
      exact .inr ⟨u, rfl⟩
  | packCallsign | packLocator | packPower => exact (hpacking (by simp)).imp_right .inl
  | _ => exact .inl (hlater (by simp))

/-- The sequencer delivers nothing of its own but what MERGE_SYNC has just made (R104). -/
theorem exec_advance_responses {s t : State} {i : Instr} (h : exec i s = .next t) :
    (t.advance i).responses = s.responses ∨ (∃ e, (t.advance i).responses = s.responses ++ [.err e]) ∨
      ∃ u : Txn, (t.advance i).responses = s.responses ++ [.ok (u.mergeSync hardware).symbols] := by
  obtain hkeep | ⟨rfl, hmerge⟩ := t.advance_responses i
  · rw [hkeep]
    exact exec_responses h
  · cases (exec_mergeSync s).symm.trans h
    exact .inr (.inr ⟨_, hmerge⟩)

/-- Symbols added to the responses must carry the sync bits (R97). -/
theorem State.SyncCarried.of_append {s t : State} {response : Response} (h : s.SyncCarried)
    (ht : t.responses = s.responses ++ [response])
    (hresponse : ∀ symbols, response = .ok symbols → ∀ i, (symbols.get i).val % 2 = (hardware.sync.get i).toNat) :
    t.SyncCarried := by
  intro symbols hmem
  rw [ht, List.mem_append, List.mem_singleton] at hmem
  exact hmem.elim (h symbols) fun heq => hresponse symbols heq.symm

/-- The sync bits are those of the responses (R97). -/
theorem State.SyncCarried.of_eq {s t : State} (h : s.SyncCarried) (ht : t.responses = s.responses) : t.SyncCarried := by
  rwa [State.SyncCarried, ht]

/-- Settles O54: a step delivers nothing, an error, or symbols that MERGE_SYNC has made. -/
theorem stepKeepsSyncCarried : Obligations.StepKeepsSyncCarried := by
  intro s t h hstep
  obtain ⟨-, rfl⟩ | ⟨-, -, -, rfl⟩ | ⟨-, -, -, rfl⟩ | ⟨r, rest, -, -, -, -, rfl⟩ | ⟨i, rest, u, -, -, -, -, hexec, rfl⟩ :=
    step_cases hstep
  · exact h.of_eq rfl
  · exact h.of_eq rfl
  · exact h
  · exact h.of_eq rfl
  · obtain hsame | ⟨e, herr⟩ | ⟨v, hok⟩ := exec_advance_responses hexec
    · exact h.of_eq hsame
    · exact h.of_append herr nofun
    · refine h.of_append hok fun symbols heq => ?_
      cases heq
      exact v.mergeSync_low_bit hardware

/-! ### Issuing -/

/-- A commit does not look at the requests issued (R13). -/
theorem State.commit_issue (s : State) (r : Request) (result : Except ErrorKind Txn) :
    (s.issue r).commit result = (s.commit result).issue r := by
  cases result <;> rfl

/-- An operation does the same with one more request issued (R115, R120). -/
theorem exec_issue {s t : State} {i : Instr} (r : Request) (h : exec i s = .next t) :
    exec i (s.issue r) = .next (t.issue r) := by
  cases i with
  | packCallsign | packLocator | packPower =>
    cases h
    exact congrArg _ (s.commit_issue r _)
  | convStep =>
    obtain hk | hk := s.txn.k_cases
    · cases (exec_convStep_of_eq hk).symm.trans h
    · cases (exec_convStep_of_lt hk).symm.trans h
      exact exec_convStep_of_lt (s := s.issue r) hk
  | _ =>
    cases h
    rfl

/-- The sequencer's advance does not look at the requests issued (R104). -/
theorem State.advance_issue (s : State) (r : Request) (i : Instr) : (s.issue r).advance i = (s.advance i).issue r := by
  by_cases hd : s.txn.stage = .done
  · rw [State.advance_done s i hd, State.advance_done (s.issue r) i hd]
  · cases i <;> simp only [State.advance, State.issue_txn, hd, if_false] <;> rfl

/-- What decodes does so with one more request behind it (R42). -/
theorem decode_append {op : OpId} {requests rest : List Request} {i : Instr} (r : Request)
    (h : decode op requests = .ok (i, rest)) : decode op (requests ++ [r]) = .ok (i, rest ++ [r]) := by
  obtain ⟨rfl, rfl⟩ := decode_ok h
  rw [List.append_assoc]
  exact decode_encode i (rest ++ [r])

/-- Settles O56, by the cases of a step; a block that waits has nothing to do. -/
theorem issuingDisturbsNoStep : Obligations.IssuingDisturbsNoStep := by
  intro s t r hwork hstep
  obtain ⟨hd, rfl⟩ | ⟨hstage, hop, hk, rfl⟩ | ⟨hd, hop, hreq, -⟩ | ⟨r', rest, hd, hform, hop, hreq, rfl⟩ |
    ⟨i, rest, u, hd, hc, hdec, hform, hexec, rfl⟩ := step_cases hstep
  · exact step_of_done (s := s.issue r) hd
  · exact step_of_convDone (s := s.issue r) hstage hop hk
  · simp [hd, hop, hreq] at hwork
  · have hreq' : (s.issue r).requests = r' :: (rest ++ [r]) := by simp [hreq]
    exact step_of_staged_request (s := s.issue r) hd hop hform hreq'
  · rw [← State.advance_issue]
    exact step_of_decode (s := s.issue r) hd hc (decode_append r hdec) hform (exec_issue r hexec)

/-! ### Stops -/

/-- An operation answers a next state, but for CONV_STEP at `k` = 81 (R107, log entry 7). -/
theorem exec_next_or_fault (i : Instr) (s : State) : (∃ t, exec i s = .next t) ∨
    (i = .convStep ∧ s.txn.k = 81 ∧ exec i s = .fault .convIndexOutOfRange) := by
  cases i with
  | convStep =>
    obtain hk | hk := s.txn.k_cases
    · exact .inr ⟨rfl, hk, exec_convStep_of_eq hk⟩
    · exact .inl ⟨_, exec_convStep_of_lt hk⟩
  | _ => exact .inl ⟨_, rfl⟩

/-- Settles O12, by the answers of the fetch; the fault is CONV_STEP's, which decodes from its own identifier. -/
theorem onlyNamedStops : Obligations.OnlyNamedStops := by
  refine ⟨exec_next_or_fault, fun s => ?_⟩
  obtain ⟨hd, hf⟩ | ⟨hstage, hop, hk, hf⟩ | ⟨hd, hop, hreq, hf⟩ | ⟨hd, hop, hf⟩ | ⟨r, rest, hd, hform, hop, hreq, hf⟩ |
    ⟨i, rest, hd, hc, hdec, hform, hf⟩ := s.fetch_cases
  · exact .inl ⟨_, step_of_done hd⟩
  · exact .inl ⟨_, step_of_convDone hstage hop hk⟩
  · exact .inl ⟨_, step_of_no_request hd hop hreq⟩
  · exact .inr (.inr ⟨hop, by rw [step, hf]⟩)
  · exact .inl ⟨_, step_of_staged_request hd hop hform hreq⟩
  · obtain ⟨u, hexec⟩ | ⟨rfl, hk, hexec⟩ := exec_next_or_fault i { s with requests := rest }
    · exact .inl ⟨_, step_of_decode hd hc hdec hform hexec⟩
    · have hop : s.op = Instr.convStep.opId := (decode_ok hdec).1
      have hstage : s.txn.stage ≠ .conv := fun h => Bool.eq_false_iff.mp hc (s.convDone_iff.mpr ⟨h, hop, hk⟩)
      exact .inr (.inl ⟨hstage, hop, hk, by rw [step, hf]; simp only [hexec]⟩)

/-- Settles O35: there is no step index left. -/
theorem convStepStopsPastTheLastInput : Obligations.ConvStepStopsPastTheLastInput := fun _ => exec_convStep_of_eq

/-- An operation's identifier is one of 0..8 (R52). -/
theorem opId_lt (i : Instr) : i.opId.toNat < 9 := by
  cases i <;> simp [Instr.opId]

/-- Settles O3: what decodes has an identifier below 9, and the other refusal is ENCODE's alone. -/
theorem unassignedOpIdsAreRefused : Obligations.UnassignedOpIdsAreRefused := by
  intro s hd hop
  have hdec : decode s.op s.requests = .error (.unassignedOp s.op) := by
    cases hdec : decode s.op s.requests with
    | ok result =>
      have hlt := opId_lt result.1
      rw [← (decode_ok hdec).1] at hlt
      omega
    | error e =>
      obtain ⟨hzero, -, -⟩ | ⟨-, rfl⟩ := decode_error hdec
      · simp [hzero] at hop
      · rfl
  have hc : s.convDone = false := State.convDone_of_op fun h => absurd (h ▸ hop) (by decide)
  exact ⟨hdec, by simp [step, State.fetch, hd, hc, hdec]⟩

/-! ### Reset, idling and discarding -/

/-- Settles O6: reset leaves an idle block in the atomic form. -/
theorem resetAnswersTheFirstRequest : Obligations.ResetAnswersTheFirstRequest :=
  ⟨rfl, rfl, ⟨rfl, rfl⟩, fun r => State.Idle.step_atomic (s := State.reset.issue r) ⟨rfl, rfl⟩ rfl rfl⟩

/-- Settles O7: the step that takes the request begins its transaction from the idle storage. -/
theorem stagedTransactionStartsCleared : Obligations.StagedTransactionStartsCleared := fun _ _ _ hidle hform hreq =>
  ⟨_, step_of_staged_request hidle.stage_ne_done hidle.1 hform hreq, rfl, rfl, rfl, rfl, rfl, rfl, rfl⟩

/-- Settles O8: an idle block has ENCODE next and nothing to finish. -/
theorem idleBlockWaits : Obligations.IdleBlockWaits := fun _ hidle hreq =>
  step_of_no_request hidle.stage_ne_done hidle.1 hreq

/-- Settles O9: the step of a finished transaction, and what a discard leaves. -/
theorem finishedTransactionIsDiscarded : Obligations.FinishedTransactionIsDiscarded :=
  ⟨fun _ => step_of_done, fun s => ⟨rfl, rfl, s.discard_idle⟩⟩

end Sys2Proof.Machine

/-! PROOFS. Families 30, 40 and 42: the operation map, the octet classes, the power port, the callsign's pattern and
CONV_ENCODE (R25, R44, R52, R57..R61, R84). -/

namespace Sys2Proof.Machine

/-- Settles O1, row by row of the table. -/
theorem opcodeTableWordsDecode : Obligations.OpcodeTableWordsDecode :=
  ⟨rfl, rfl, rfl, rfl, rfl, rfl, rfl, rfl, rfl⟩

/-- The identifier in an operation's encoding (R52). -/
theorem encode_fst (i : Instr) : (encode i).1 = i.opId := by
  cases i <;> rfl

/-- Settles O2: the two directions of the decoder's law. -/
theorem decodeUndoesEncode : Obligations.DecodeUndoesEncode := by
  refine ⟨fun i rest => ?_, fun op requests rest i hdec => ?_⟩
  · rw [encode_fst]
    exact decode_encode i rest
  · obtain ⟨hop, hrequests⟩ := decode_ok hdec
    exact ⟨(encode_fst i).trans hop.symm, hrequests.symm⟩

/-- Settles O4: an integer in the range of a width's two's complement is its own value there. -/
theorem powerPortRoundTrip : Obligations.PowerPortRoundTrip := by
  intro width r hfits
  obtain ⟨hwidth, hlow, hhigh⟩ := of_decide_eq_true hfits
  exact BitVec.toInt_ofInt_eq_self hwidth hlow hhigh

/-- Settles O13: the ranges are those of the definition's branches, and the predicates compare with a class. -/
theorem octetClassesPartition : Obligations.OctetClassesPartition := by
  refine fun b => ⟨?_, ?_, ?_, ?_, beq_iff_eq, by rw [isUpper, Bool.or_eq_true, beq_iff_eq, beq_iff_eq], beq_iff_eq⟩
  all_goals
    unfold octetClass
    split_ifs <;> simp only [true_iff, false_iff] <;> omega

/-- `FIRST_DIGIT`'s condition on one or two octets in front of the digit (R59). -/
theorem digitAt_one_eq_false_iff {front : List Octet} (hlen : front.length = 1 ∨ front.length = 2) :
    digitAt front 1 = false ↔ ∀ b0 b1, front = [b0, b1] → isDigit b1 = false := by
  match front, hlen with
  | [b], _ => simp [digitAt]
  | [b0, b1], _ => simp [digitAt]

/-- The pattern leaves no room for more than six octets (R57). -/
theorem callsignShape_iff {scan : DigitScan} {s front tail : List Octet} {d : Octet} :
    CallsignShape scan s front d tail ↔
      4 ≤ s.length ∧ s = front ++ d :: tail ∧ (front.length = 1 ∨ front.length = 2) ∧ front.all isAlnum = true ∧
        isDigit d = true ∧ 1 ≤ tail.length ∧ tail.length ≤ 3 ∧ tail.all isUpper = true ∧
        (scan = .firstDigit → ∀ b0 b1, front = [b0, b1] → isDigit b1 = false) := by
  constructor
  · rintro ⟨heq, hmin, hlen, halnum, hd, htail, htail', hupper, hscan⟩
    exact ⟨hmin, heq, hlen, halnum, hd, htail, htail', hupper, fun h => (digitAt_one_eq_false_iff hlen).mp (hscan h)⟩
  · rintro ⟨hmin, heq, hlen, halnum, hd, htail, htail', hupper, hscan⟩
    exact ⟨heq, hmin, hlen, halnum, hd, htail, htail', hupper, fun h => (digitAt_one_eq_false_iff hlen).mpr (hscan h)⟩

/-- Settles O21: the callsigns that pack are those of the pattern. -/
theorem callsignAcceptedIffShaped : Obligations.CallsignAcceptedIffShaped := by
  refine ⟨fun s => exec_packCallsign_of_invalid, fun scan s => validCallsign_iff_ok.symm.trans ?_⟩
  simp only [ValidCallsign, callsignShape_iff, exists_and_left]

/-- Settles O37, from the closed form of the loop. -/
theorem convEncodeCompletes : Obligations.ConvEncodeCompletes := by
  intro s
  refine ⟨(s.txn.convEncode hardware).sr, codewordOf hardware s.txn.input, codewordOf_pair hardware s.txn.input, fun i => ?_,
    ?_⟩
  · rw [Txn.convEncode_sr_getLsbD, Vector.getElem?_eq_getElem (by omega), Vector.get_eq_getElem]
  · rw [exec_convEncode, ← Txn.convEncode_eq]

end Sys2Proof.Machine

/-! PROOFS. Family 45: the response to a request, and what it tells of the message (R98..R100). -/

namespace Sys2Proof.Machine

/-! ### The first error, or the symbols -/

/-- ENCODE leaves an idle block with one more response (R27, R98). -/
theorem exec_encode_eq (r : Request) (s : State) : exec (.encode r) s =
    .next { s with responses := s.responses ++ [encodeRequest hardware r], op := 0, txn := Txn.idle } := rfl

/-- A field that does not pack has an error (R13). -/
theorem exists_error_of_not_ok {α : Type} {result : Except ErrorKind α} (h : ¬∃ a, result = .ok a) :
    ∃ e, result = .error e := by
  cases result with
  | ok a => exact absurd ⟨a, rfl⟩ h
  | error e => exact ⟨e, rfl⟩

/-- Settles O47: what is not valid does not pack, and the errors come in the order of the packing stages. -/
theorem encodeReportsTheFirstError : Obligations.EncodeReportsTheFirstError := by
  intro s r
  refine ⟨encodeRequest hardware r, exec_encode_eq r s, fun hcall => ?_, fun hcall hloc => ?_, fun hcall hloc hpow => ?_,
    encodeRequest_of_valid rfl⟩
  · exact encodeRequest_of_callsign_error (exists_error_of_not_ok (mt validCallsign_iff_ok.mpr hcall))
  · exact encodeRequest_of_locator_error (validCallsign_iff_ok.mp hcall)
      (exists_error_of_not_ok (mt validLocator_iff_ok.mpr hloc))
  · exact encodeRequest_of_power_error (validCallsign_iff_ok.mp hcall) (validLocator_iff_ok.mp hloc)
      (exists_error_of_not_ok (mt validPower_iff_ok.mpr hpow))

/-- Settles O48: the relation of the stage rules is the graph of the `ok` responses. -/
theorem encodeMeetsTheStageRules : Obligations.EncodeMeetsTheStageRules := by
  refine ⟨fun r hr => ?_, fun s r symbols => ?_⟩
  · obtain ⟨symbols, hok⟩ := encodeRequest_of_valid (p := hardware) rfl hr
    refine ⟨symbols, encodes_iff_encodeRequest.mpr hok, fun symbols' h => ?_⟩
    exact Response.ok.inj ((encodes_iff_encodeRequest.mp h).symm.trans hok)
  · rw [encodes_iff_encodeRequest, exec_encode_eq]
    simp

/-! ### The codeword gives back the input -/

/-- A mask that selects the current input gives back the first input bit that two inputs could differ in: changing that bit
alone would change the output bit (R86, R87). -/
theorem input_eq_of_outputBit_eq {poly : BitVec 32} (h0 : poly.getLsbD 0 = true) {u v : BitSeq 81} {j : Fin 81}
    (hbefore : ∀ i < j, u.get i = v.get i) (h : outputBit poly u j.val = outputBit poly v j.val) :
    u.get j = v.get j := by
  by_contra hne
  have hset (i : Fin 81) : (u.set j.val (v.get j)).get i = if i = j then v.get j else u.get i := by
    simp only [Vector.get_eq_getElem, Vector.getElem_set, Fin.ext_iff, eq_comm]
  have hcongr : outputBit poly v j.val = outputBit poly (u.set j.val (v.get j)) j.val :=
    outputBit_congr fun i hi _ => by
      rw [hset]
      split_ifs with hij
      · rw [hij]
      · exact (hbefore i (lt_of_le_of_ne hi hij)).symm
  refine outputBit_ne_of_differ (u := u) (le_refl j) (by rwa [Nat.sub_self]) (fun i => ?_) (h.trans hcongr)
  rw [hset]
  split_ifs with hij
  · exact iff_of_false (hij ▸ hne) (not_not_intro hij)
  · exact iff_of_true rfl hij

/-- A mask that selects the current input makes the encoder injective, bit after bit (R86). -/
theorem codewordOf_injective {p : Params} (h0 : p.polyA.getLsbD 0 = true) {u v : BitSeq 81}
    (h : codewordOf p u = codewordOf p v) : u = v := by
  have hbit (j : Fin 81) : u.get j = v.get j := by
    induction j using WellFoundedLT.induction with
    | _ j hbefore =>
      have hpair := (codewordOf_pair p u j).1
      rw [h, (codewordOf_pair p v j).1] at hpair
      exact input_eq_of_outputBit_eq h0 hbefore (Option.some.inj hpair).symm
  ext i hi
  exact hbit ⟨i, hi⟩

/-- The encoder input holds the whole message word (R50). -/
theorem encoderInput_injective : Function.Injective encoderInput := by
  intro w w' h
  refine BitVec.eq_of_getLsbD_eq fun i hi => ?_
  have hget (x : BitVec 50) : (encoderInput x).get ⟨49 - i, by omega⟩ = x.getLsbD i :=
    (encoderInput_get_of_le x (i := ⟨49 - i, by omega⟩) (Nat.sub_le 49 i)).trans
      (congrArg x.getLsbD (Nat.sub_sub_self (Nat.le_of_lt_succ hi)))
  rw [← hget w, h, hget w']

/-- The message word holds its three fields (R49). -/
theorem messageWord_injective {n n' : BitVec 28} {l l' : BitVec 15} {q q' : BitVec 7}
    (h : messageWord n l q = messageWord n' l' q') : n = n' ∧ l = l' ∧ q = q' := by
  refine ⟨?_, ?_, ?_⟩
  · rw [← messageWord_slice_callsign n l q, h, messageWord_slice_callsign]
  · rw [← messageWord_slice_locator n l q, h, messageWord_slice_locator]
  · rw [← messageWord_slice_power n l q, h, messageWord_slice_power]

/-! ### The packed fields give back the message -/

/-- An octet of the callsign's alphabet by its code (R45). -/
theorem toNat_eq_of_code {b : Octet} (h : isDigit b = true ∨ isUpper b = true ∨ b = space) :
    b.toNat = if code b ≤ 9 then code b + 0x30 else if code b ≤ 35 then code b + 0x37 else 0x20 := by
  obtain h | h | rfl := h
  · have hrange := (isDigit_iff b).mp h
    have hcode := code_of_isDigit h
    split_ifs <;> omega
  · have hrange := (isUpper_iff b).mp h
    have hcode := code_of_isUpper h
    split_ifs <;> omega
  · rfl

/-- The ranges of the codes of an accepted callsign (R62). -/
def CodesInRange (call6 : Vector Octet 6) : Prop :=
  code (call6.get 0) ≤ 36 ∧ code (call6.get 1) ≤ 35 ∧ code (call6.get 2) ≤ 9 ∧
    ∀ i : Fin 6, 3 ≤ i.val → 10 ≤ code (call6.get i) ∧ code (call6.get i) - 10 ≤ 26

/-- An accepted callsign has its codes in range (R62). -/
theorem callsignField_codesInRange {scan : DigitScan} {s : List Octet} {call6 : Vector Octet 6} {n : BitVec 28}
    (h : callsignField scan s = .ok (call6, n)) : CodesInRange call6 := by
  obtain ⟨-, -, -, d, hpos, -⟩ := callsignField_ok.mp h
  obtain ⟨-, -, -, -, -, hcodes⟩ := callsignLeadingPositions scan s d call6 n hpos h
  exact hcodes

/-- One digit of a mixed-radix number, and the number in front of it. -/
theorem digit_unique {m a a' b b' : Nat} (hb : b < m) (hb' : b' < m) (h : a * m + b = a' * m + b') : a = a' ∧ b = b' := by
  have hmod := congrArg (· % m) h
  simp only [Nat.mul_add_mod_self_right, Nat.mod_eq_of_lt hb, Nat.mod_eq_of_lt hb'] at hmod
  subst hmod
  exact ⟨Nat.eq_of_mul_eq_mul_right (Nat.zero_lt_of_lt hb) (Nat.add_right_cancel h), rfl⟩

/-- Codes in range are the digits of the packed callsign (R63). -/
theorem callPack_injective {c c' : Vector Octet 6} (hc : CodesInRange c) (hc' : CodesInRange c')
    (h : callPack c = callPack c') (i : Fin 6) : code (c.get i) = code (c'.get i) := by
  obtain ⟨-, h1, h2, htail⟩ := hc
  obtain ⟨-, h1', h2', htail'⟩ := hc'
  have h3 := htail 3 (by decide)
  have h4 := htail 4 (by decide)
  have h5 := htail 5 (by decide)
  have h3' := htail' 3 (by decide)
  have h4' := htail' 4 (by decide)
  have h5' := htail' 5 (by decide)
  rw [callPack_eq_get, callPack_eq_get] at h
  obtain ⟨h, e5⟩ := digit_unique (by omega) (by omega) h
  obtain ⟨h, e4⟩ := digit_unique (by omega) (by omega) h
  obtain ⟨h, e3⟩ := digit_unique (by omega) (by omega) h
  obtain ⟨h, e2⟩ := digit_unique (by omega) (by omega) h
  obtain ⟨e0, e1⟩ := digit_unique (by omega) (by omega) h
  match i with
  | 0 => exact e0
  | 1 => exact e1
  | 2 => exact e2
  | 3 => omega
  | 4 => omega
  | 5 => omega

/-- An accepted callsign is its normalized form without the padding (R60). -/
theorem callsignField_text {scan : DigitScan} {s : List Octet} {call6 : Vector Octet 6} {n : BitVec 28}
    (h : callsignField scan s = .ok (call6, n)) : call6.toList.filter (· ≠ space) = s := by
  obtain ⟨-, -, hall, d, -, hfit, -, rfl, -⟩ := callsignField_ok.mp h
  have hs : s.filter (· ≠ space) = s :=
    List.filter_eq_self.mpr fun b hb => decide_eq_true (isAlnum_ne_space (List.all_eq_true.mp hall b hb))
  rw [normalize_toList _ _ hfit, List.filter_append, List.filter_append, hs]
  simp

/-- Callsigns that pack to one `N` are the same (R63). -/
theorem callsignField_injective {scan : DigitScan} {s s' : List Octet} {c c' : Vector Octet 6} {n : BitVec 28}
    (h : callsignField scan s = .ok (c, n)) (h' : callsignField scan s' = .ok (c', n)) : s = s' := by
  obtain ⟨hn, -⟩ := callsignFieldRange.1 scan s c n h
  obtain ⟨hn', -⟩ := callsignFieldRange.1 scan s' c' n h'
  have hcode := callPack_injective (callsignField_codesInRange h) (callsignField_codesInRange h') (hn.symm.trans hn')
  have hcall : c = c' := by
    ext1 i hi
    have hget : c.get ⟨i, hi⟩ = c'.get ⟨i, hi⟩ := BitVec.eq_of_toNat_eq <| by
      rw [toNat_eq_of_code (callsignField_alphabet h _), toNat_eq_of_code (callsignField_alphabet h' _), hcode]
    exact hget
  rw [← callsignField_text h, ← callsignField_text h', hcall]

/-- Locators that pack to one `L` are the same (R69). -/
theorem locatorField_injective {g g' : List Octet} {l : BitVec 15} (h : locatorField g = .ok l)
    (h' : locatorField g' = .ok l) : g = g' := by
  obtain ⟨hrange, hbijection⟩ := locatorFieldIsABijection
  have hl : BitVec.ofNat 15 l.toNat = l := by rw [BitVec.ofNat_toNat, BitVec.setWidth_eq]
  exact (hbijection l.toNat (hrange g l h)).unique (hl.symm ▸ h) (hl.symm ▸ h')

/-- A power that packs rounds to the step in `P` (R73, R74). -/
theorem powerField_roundsTo {power : Int} {q : BitVec 7} (h : powerField power = .ok q) :
    RoundsTo power (q.toNat - 64) := by
  obtain ⟨hvalid, -⟩ := powerField_ok.mp h
  obtain ⟨q', hok, hq, -⟩ := powerField_of_valid hvalid
  cases h.symm.trans hok
  rw [hq, Nat.add_sub_cancel]
  exact powerStep_roundsTo hvalid.1

/-! ### No message is lost -/

/-- The symbols give back the interleaved word (R97). -/
theorem interleaved_unique {p : Params} {symbols : Vector Symbol 162} {w w' : BitSeq 162}
    (h : ∀ i : Fin 162, (symbols.get i).val = 2 * (w.get i).toNat + (p.sync.get i).toNat)
    (h' : ∀ i : Fin 162, (symbols.get i).val = 2 * (w'.get i).toNat + (p.sync.get i).toNat) : w = w' := by
  ext i hi
  have heq := (h ⟨i, hi⟩).symm.trans (h' ⟨i, hi⟩)
  exact Function.LeftInverse.injective Bool.ofNat_toNat (Nat.eq_of_mul_eq_mul_left Nat.two_pos (Nat.add_right_cancel heq))

/-- Settles O50: symbols, interleaved word, codeword, input, message word and fields each give back what they were made
of. -/
theorem equalSymbolsMeanEqualMessages : Obligations.EqualSymbolsMeanEqualMessages := by
  intro r1 r2 symbols h1 h2
  obtain ⟨c1, n1, l1, q1, w1, hc1, hl1, hq1, hw1, hs1⟩ := encodes_iff_encodeRequest.mpr h1
  obtain ⟨c2, n2, l2, q2, w2, hc2, hl2, hq2, hw2, hs2⟩ := encodes_iff_encodeRequest.mpr h2
  cases interleaved_unique hs1 hs2
  obtain ⟨-, -, -, -, -, -, hA, -⟩ := generatorMasks
  have hinput := codewordOf_injective hA (hw1.codeword_unique hw2)
  obtain ⟨rfl, rfl, rfl⟩ := messageWord_injective (encoderInput_injective hinput)
  exact ⟨callsignField_injective hc1 hc2, locatorField_injective hl1 hl2, _, powerField_roundsTo hq1,
    powerField_roundsTo hq2⟩

end Sys2Proof.Machine
